-- ==== Sys2Proof/Word.lean ====
section
/-! DEFINITION. The machine's only word: the unsigned byte (00_scope.md R6). -/

namespace Sys2Proof

/-- A byte, "a natural number in 0 to 255, held in 8 bits" (00_scope.md R6). Registers, operand bytes, immediates and
program-store bytes are all bytes. There is no other datum (20_memory.md R34). -/
abbrev Byte := BitVec 8

end Sys2Proof
end

