-- ==== Sys2Proof/Config.lean ====
section
/-! DEFINITION. The parameters of the hardware (00_scope.md R5): the record of numeric codes, and the fixed constants.

The decided DEFAULTS of the codes are `Sys2Proof.defaultConfig`, in Sys2Proof/Decode.lean. The parameter `PROG_LEN` is
the field `progLen` of State, since it is the length of the program the host supplies (log 1, log 2). The spec leaves no
value free (44_fetch_execute_cycle.md R107), so nothing here is opaque. -/

namespace Sys2Proof

/-- The numeric opcode and address codes: "a model takes the eight codes as a configuration record"
(92_eei_decisions.md D1, D2; 30_encoding.md R54, R56). -/
structure Config where
  opAdd  : Byte
  opAddi : Byte
  opAnd  : Byte
  opAndi : Byte
  opIfeq : Byte
  opIfne : Byte
  opLoad : Byte
  opSave : Byte
  aReg0  : Byte
  aReg1  : Byte
  aReg2  : Byte
  aReg3  : Byte
  aReg4  : Byte
  aReg5  : Byte
  aPc    : Byte
  aIo    : Byte
  deriving DecidableEq, Repr

/-- The eight named opcode codes (30_encoding.md R56). -/
def Config.opcodeCodes (c : Config) : List Byte :=
  [c.opAdd, c.opAddi, c.opAnd, c.opAndi, c.opIfeq, c.opIfne, c.opLoad, c.opSave]

/-- The eight address codes (30_encoding.md R54). -/
def Config.addressCodes (c : Config) : List Byte :=
  [c.aReg0, c.aReg1, c.aReg2, c.aReg3, c.aReg4, c.aReg5, c.aPc, c.aIo]

/-- "The only constraints the source puts on the decided codes: the opcode codes are pairwise distinct ... and the eight
address codes are pairwise distinct" (00_scope.md R5). A record that is not distinct is no hardware of the spec (log 5). -/
abbrev Config.Distinct (c : Config) : Prop :=
  c.opcodeCodes.Nodup ∧ c.addressCodes.Nodup

/-- `MOD`: the modulus of addition results and of the PC advance, fixed (00_scope.md R5; log 17). -/
def Config.modulus : Nat := 255

/-- `PC_STEP`: the sequential advance of the PC, fixed (00_scope.md R5). -/
def Config.pcStep : Nat := 4

/-- `IO_READ`: "this core returns a fixed placeholder of 0" (00_scope.md R5; 10_state.md R17; log 13). -/
def Config.ioRead : Byte := 0

/-- `RAM_SIZE`: entries of the inert RAM, fixed (00_scope.md R5; 10_state.md R19). -/
def Config.ramSize : Nat := 255

/-- `STACK_SIZE`: entries of the inert Stack, fixed (00_scope.md R5; 10_state.md R19). -/
def Config.stackSize : Nat := 255

/-- The default of `PROG_LEN` (00_scope.md R5; 92_eei_decisions.md D3). The model itself holds the length of the
supplied program in State and takes any (log 1). -/
def Config.defaultProgLen : Nat := 255

end Sys2Proof
end

