-- ==== Sys2Proof/Syntax.lean ====
section
/-! DEFINITION. The instruction set: registers, operand addresses, the nine rows of spec/opcode_table.json, and the four
fetched bytes. -/

namespace Sys2Proof

/-- The seven cells of the register file (10_state.md R10). -/
inductive Reg where
  | reg0 | reg1 | reg2 | reg3 | reg4 | reg5 | pc
  deriving DecidableEq, Repr

/-- What a byte in an address position names (10_state.md R16; 30_encoding.md R54): a cell, the IO stub, or nothing
("unrecognised address", 10_state.md R18; the byte is kept so that an instruction can be written back). -/
inductive Addr where
  | cell (r : Reg)
  | io
  | unrecognised (b : Byte)
  deriving DecidableEq, Repr

/-- The instructions, one constructor per row of spec/opcode_table.json. Operands stand in encoding order
(30_encoding.md R53). The rows without a handler keep their ignored bytes; 30_encoding.md R59 calls all four NOP
(log 11). -/
inductive Instr where
  /-- ADD: `x[d] <- (x[s1] + x[s2]) mod 255` (40_arithmetic_logic.md R71). -/
  | add (s1 s2 d : Addr)
  /-- ADDI: `x[d] <- (x[s] + imm) mod 255` (40_arithmetic_logic.md R72). -/
  | addi (s : Addr) (imm : Byte) (d : Addr)
  /-- AND: `x[d] <- x[s1] & x[s2]` (40_arithmetic_logic.md R73). -/
  | and (s1 s2 d : Addr)
  /-- ANDI: `x[d] <- x[s] & imm` (40_arithmetic_logic.md R74). -/
  | andi (s : Addr) (imm : Byte) (d : Addr)
  /-- IFEQ: if `x[a] == x[b]` then `pc <- target` (41_conditional_jump.md R80). -/
  | ifeq (a b : Addr) (target : Byte)
  /-- IFNE: reserved, no handler (41_conditional_jump.md R82). -/
  | ifne (arg1 arg2 arg3 : Byte)
  /-- LOAD: reserved, no handler (42_reserved_and_unassigned.md R90). -/
  | load (arg1 arg2 arg3 : Byte)
  /-- SAVE: reserved, no handler (42_reserved_and_unassigned.md R90). -/
  | save (arg1 arg2 arg3 : Byte)
  /-- Every opcode byte that is none of the eight named codes (42_reserved_and_unassigned.md R91). -/
  | unassigned (opcode arg1 arg2 arg3 : Byte)
  deriving DecidableEq, Repr

/-- The four bytes of one instruction, in fetch order (30_encoding.md R50). -/
structure InstrBytes where
  opcode : Byte
  arg1   : Byte
  arg2   : Byte
  arg3   : Byte
  deriving DecidableEq, Repr

end Sys2Proof
end

