-- ==== Sys2Proof/WellFormed.lean ====
section
/-! DEFINITION. Which terms of `Instr` some four bytes stand for, under a record of codes: a byte called unrecognised is
no address code (10_state.md R18), and an opcode called unassigned is none of the eight (42_reserved_and_unassigned.md
R91). Nothing else can be ill-formed, since every byte pattern is an instruction (30_encoding.md R58). -/

namespace Sys2Proof

/-- A byte called unrecognised is none of the eight address codes (10_state.md R18). -/
def Addr.wf (cfg : Config) : Addr → Bool
  | .cell _ => true
  | .io => true
  | .unrecognised b => !cfg.addressCodes.contains b

/-- Every address is well formed, and an opcode called unassigned is none of the eight codes. -/
def Instr.wf (cfg : Config) : Instr → Bool
  | .add s1 s2 d => s1.wf cfg && s2.wf cfg && d.wf cfg
  | .addi s _ d => s.wf cfg && d.wf cfg
  | .and s1 s2 d => s1.wf cfg && s2.wf cfg && d.wf cfg
  | .andi s _ d => s.wf cfg && d.wf cfg
  | .ifeq a b _ => a.wf cfg && b.wf cfg
  | .ifne _ _ _ => true
  | .load _ _ _ => true
  | .save _ _ _ => true
  | .unassigned op _ _ _ => !cfg.opcodeCodes.contains op

end Sys2Proof
end

