-- ==== Sys2Proof/Decode.lean ====
section
/-! DEFINITION. The instruction decoder (30_encoding.md R50 to R59), total on four bytes; the encoder, written from the
same tables; the default codes (30_encoding.md R54, R56); the table's word notation (30_encoding.md R51). -/

namespace Sys2Proof

/-- The default codes of 30_encoding.md R54 and R56. They are the spec's own decision (92_eei_decisions.md D1, D2), not
the source's (UNVERIFIED, log 4). -/
def defaultConfig : Config where
  opAdd  := 0x00
  opAddi := 0x01
  opAnd  := 0x02
  opAndi := 0x03
  opIfeq := 0x40
  opIfne := 0x41
  opLoad := 0x80
  opSave := 0x81
  aReg0  := 0x00
  aReg1  := 0x01
  aReg2  := 0x02
  aReg3  := 0x03
  aReg4  := 0x04
  aReg5  := 0x05
  aPc    := 0x06
  aIo    := 0x07

/-- What the byte of an address position names (30_encoding.md R54; 10_state.md R18). -/
def decodeAddr (cfg : Config) (a : Byte) : Addr :=
  if a = cfg.aReg0 then .cell .reg0
  else if a = cfg.aReg1 then .cell .reg1
  else if a = cfg.aReg2 then .cell .reg2
  else if a = cfg.aReg3 then .cell .reg3
  else if a = cfg.aReg4 then .cell .reg4
  else if a = cfg.aReg5 then .cell .reg5
  else if a = cfg.aPc then .cell .pc
  else if a = cfg.aIo then .io
  else .unrecognised a

/-- The decoder of 30_encoding.md R59: the whole opcode byte is compared (R52), the opcode alone says which positions are
addresses (R53), and it never fails (R58). The opcodes without a handler, one NOP in R59, keep their names (log 11). -/
def decode (cfg : Config) (w : InstrBytes) : Instr :=
  if w.opcode = cfg.opAdd then
    .add (decodeAddr cfg w.arg1) (decodeAddr cfg w.arg2) (decodeAddr cfg w.arg3)
  else if w.opcode = cfg.opAddi then
    .addi (decodeAddr cfg w.arg1) w.arg2 (decodeAddr cfg w.arg3)
  else if w.opcode = cfg.opAnd then
    .and (decodeAddr cfg w.arg1) (decodeAddr cfg w.arg2) (decodeAddr cfg w.arg3)
  else if w.opcode = cfg.opAndi then
    .andi (decodeAddr cfg w.arg1) w.arg2 (decodeAddr cfg w.arg3)
  else if w.opcode = cfg.opIfeq then
    .ifeq (decodeAddr cfg w.arg1) (decodeAddr cfg w.arg2) w.arg3
  else if w.opcode = cfg.opIfne then .ifne w.arg1 w.arg2 w.arg3
  else if w.opcode = cfg.opLoad then .load w.arg1 w.arg2 w.arg3
  else if w.opcode = cfg.opSave then .save w.arg1 w.arg2 w.arg3
  else .unassigned w.opcode w.arg1 w.arg2 w.arg3

/-- Why a list of bytes holds no instruction. Four bytes always hold one (30_encoding.md R58). -/
inductive DecodeError where
  /-- Fewer than four bytes are left (30_encoding.md R50); it holds how many there were. -/
  | truncated (count : Nat)
  deriving DecidableEq, Repr

/-- The first instruction of a list of bytes, and the bytes after it (30_encoding.md R50, R61). -/
def decodeBytes (cfg : Config) : List Byte → Except DecodeError (Instr × List Byte)
  | op :: a1 :: a2 :: a3 :: rest => .ok (decode cfg ⟨op, a1, a2, a3⟩, rest)
  | short => .error (.truncated short.length)

/-- The byte of an address position that names the address (30_encoding.md R54). -/
def encodeAddr (cfg : Config) : Addr → Byte
  | .cell .reg0 => cfg.aReg0
  | .cell .reg1 => cfg.aReg1
  | .cell .reg2 => cfg.aReg2
  | .cell .reg3 => cfg.aReg3
  | .cell .reg4 => cfg.aReg4
  | .cell .reg5 => cfg.aReg5
  | .cell .pc => cfg.aPc
  | .io => cfg.aIo
  | .unrecognised b => b

/-- The four bytes of an instruction, from the encoding column of spec/opcode_table.json and 30_encoding.md R53, R56. -/
def encode (cfg : Config) : Instr → InstrBytes
  | .add s1 s2 d => ⟨cfg.opAdd, encodeAddr cfg s1, encodeAddr cfg s2, encodeAddr cfg d⟩
  | .addi s imm d => ⟨cfg.opAddi, encodeAddr cfg s, imm, encodeAddr cfg d⟩
  | .and s1 s2 d => ⟨cfg.opAnd, encodeAddr cfg s1, encodeAddr cfg s2, encodeAddr cfg d⟩
  | .andi s imm d => ⟨cfg.opAndi, encodeAddr cfg s, imm, encodeAddr cfg d⟩
  | .ifeq a b target => ⟨cfg.opIfeq, encodeAddr cfg a, encodeAddr cfg b, target⟩
  | .ifne b1 b2 b3 => ⟨cfg.opIfne, b1, b2, b3⟩
  | .load b1 b2 b3 => ⟨cfg.opLoad, b1, b2, b3⟩
  | .save b1 b2 b3 => ⟨cfg.opSave, b1, b2, b3⟩
  | .unassigned op b1 b2 b3 => ⟨op, b1, b2, b3⟩

/-- The four bytes in ascending index order (20_memory.md R34). -/
def InstrBytes.toList (w : InstrBytes) : List Byte :=
  [w.opcode, w.arg1, w.arg2, w.arg3]

/-- The 32-bit number `W` of the spec's notation: the opcode in the most significant byte (30_encoding.md R51). -/
def InstrBytes.toWord (w : InstrBytes) : Nat :=
  w.opcode.toNat * 2 ^ 24 + w.arg1.toNat * 2 ^ 16 + w.arg2.toNat * 2 ^ 8 + w.arg3.toNat

/-- The four bytes of a number `W`: `opcode = W[31:24]`, `arg1 = W[23:16]`, `arg2 = W[15:8]`, `arg3 = W[7:0]`
(30_encoding.md R51). -/
def InstrBytes.ofWord (w : Nat) : InstrBytes where
  opcode := BitVec.ofNat 8 (w / 2 ^ 24)
  arg1   := BitVec.ofNat 8 (w / 2 ^ 16)
  arg2   := BitVec.ofNat 8 (w / 2 ^ 8)
  arg3   := BitVec.ofNat 8 w

/-- A word of spec/opcode_table.json: the low `nbits` bits of `w` in the table's numbering, every bit above them 0
(DEDUCED, log 12). -/
def tableWordBytes (nbits w : Nat) : InstrBytes :=
  InstrBytes.ofWord (w % 2 ^ nbits)

/-- The instruction the decoder reads from the word `w` of the opcode table, laid out in fetch order (30_encoding.md R51;
log 12). No word is refused (30_encoding.md R58). -/
def decodeTableWord (nbits w : Nat) : Option Instr :=
  match decodeBytes defaultConfig (tableWordBytes nbits w).toList with
  | .ok (i, _) => some i
  | .error _ => none

end Sys2Proof
end

