-- ==== Sys2Proof/Machine/State.lean ====
section
/-! DEFINITION. The state of one machine (10_state.md), the reasons a step can stop, and the state after reset. -/

namespace Sys2Proof.Machine

/-- The register file: exactly seven 8-bit cells (10_state.md R10). The PC is one of them (10_state.md R13). -/
structure RegFile where
  reg0 : Byte
  reg1 : Byte
  reg2 : Byte
  reg3 : Byte
  reg4 : Byte
  reg5 : Byte
  pc   : Byte
  deriving DecidableEq, Repr

/-- An array of bytes, held as the list of its entries that are not zero, indices strictly rising. `Memory.wf` in
Machine/Ops.lean is that form (log 10). -/
abbrev Memory := List Host.Cell

/-- Everything the spec gives the machine (10_state.md R10, R15, R19, R21). -/
structure State where
  /-- REG0 to REG5 and PC (10_state.md R10). -/
  regs    : RegFile
  /-- The jump flag, 0 between ticks (10_state.md R15; log 8). -/
  jf      : Bool
  /-- RAM, 255 entries, inert (10_state.md R19; log 9). -/
  ram     : Memory
  /-- Stack, 255 entries, inert (10_state.md R19; log 9). -/
  stack   : Memory
  /-- The program store, which no tick changes (10_state.md R21; log 1). -/
  prog    : Memory
  /-- `PROG_LEN`, the number of bytes of the program store (00_scope.md R5; log 1). -/
  progLen : Nat
  deriving DecidableEq, Repr

/-- The faults of a step. The hardware has none (60_exceptions.md R120); the model has one. -/
inductive Fault where
  /-- `FetchOverrun`: the fetch needs the program-store index `index`, the first of `pc` to `pc+3` at or beyond
  `PROG_LEN`. Raised by `progRead` during fetch, before anything is written (44_fetch_execute_cycle.md R102;
  60_exceptions.md R122; log 6). Safe: the original does something there and the model says nothing about it. -/
  | fetchOverrun (index : Nat) (pc : Byte)
  deriving DecidableEq, Repr

/-- The refusals of a step. No instruction of this hardware is refused: every row of spec/opcode_table.json has its
meaning (30_encoding.md R58). -/
inductive Refusal where
  /-- No meaning yet for the instruction. Raised by nobody: no arm of `exec` holds it. Safe. -/
  | notModelled (mnemonic : String)
  deriving DecidableEq, Repr

/-- The machine right after reset: "every piece of state is zero" (10_state.md R25; 70_reset_and_hazards.md R140, R141).
The program is the host's to supply (10_state.md R25; 70_reset_and_hazards.md R142): here none is supplied yet, so the
store has no byte (DESIGN CHOICE, log 2). -/
def State.reset : State where
  regs    := ⟨0, 0, 0, 0, 0, 0, 0⟩
  jf      := false
  ram     := []
  stack   := []
  prog    := []
  progLen := 0

end Sys2Proof.Machine
end

