-- ==== Sys2Proof/Machine/Flags.lean ====
section
/-! DEFINITION. The jump flag, "the only flag in the machine: there are no carry, zero, negative or overflow flags"
(10_state.md R15). -/

namespace Sys2Proof.Machine

/-- `jf <- 1` (41_conditional_jump.md R80). -/
def State.raiseJump (s : State) : State :=
  { s with jf := true }

/-- `jf <- 0` (44_fetch_execute_cycle.md R100, R104). -/
def State.lowerJump (s : State) : State :=
  { s with jf := false }

end Sys2Proof.Machine
end

