-- ==== Sys2Proof/Machine/Ops.lean ====
section
/-! DEFINITION. The named operations over the register cells, the byte arrays and the ALU.

This hardware takes no exception and returns from none (60_exceptions.md R120, R125, R126), so the operation for it does
not exist here. -/

namespace Sys2Proof.Machine

/-! ## The register cells (10_state.md R10) -/

/-- The raw storage cell `R[r]` (00_scope.md R7). -/
def RegFile.read (f : RegFile) : Reg → Byte
  | .reg0 => f.reg0
  | .reg1 => f.reg1
  | .reg2 => f.reg2
  | .reg3 => f.reg3
  | .reg4 => f.reg4
  | .reg5 => f.reg5
  | .pc => f.pc

/-- `R[r] <- v`: the byte is stored as given (10_state.md R16). -/
def RegFile.write (f : RegFile) (r : Reg) (v : Byte) : RegFile :=
  match r with
  | .reg0 => { f with reg0 := v }
  | .reg1 => { f with reg1 := v }
  | .reg2 => { f with reg2 := v }
  | .reg3 => { f with reg3 := v }
  | .reg4 => { f with reg4 := v }
  | .reg5 => { f with reg5 := v }
  | .pc => { f with pc := v }

/-- The cell `R[r]` of a state. -/
def State.cell (s : State) (r : Reg) : Byte :=
  s.regs.read r

/-- The state after `R[r] <- v`. -/
def State.setCell (s : State) (r : Reg) (v : Byte) : State :=
  { s with regs := s.regs.write r v }

/-! ## The byte arrays (10_state.md R19, R21) -/

/-- What an entry that is not listed reads as: RAM and Stack hold zeros after reset (10_state.md R25), and the zero bytes
of a supplied program are not listed (log 10). -/
def Memory.unlisted : Byte := 0

/-- The byte at an index. -/
def Memory.read : Memory → Nat → Byte
  | [], _ => Memory.unlisted
  | (k, v) :: rest, a => if a = k then v else Memory.read rest a

/-- Stores a byte and keeps the canonical form: writing the unlisted byte removes the entry. Only the host's operations
use it (20_memory.md R32, R33). -/
def Memory.write : Memory → Nat → Byte → Memory
  | [], a, v => if v = Memory.unlisted then [] else [(a, v)]
  | (k, w) :: rest, a, v =>
    if a < k then
      if v = Memory.unlisted then (k, w) :: rest else (a, v) :: (k, w) :: rest
    else if a = k then
      if v = Memory.unlisted then rest else (a, v) :: rest
    else (k, w) :: Memory.write rest a v

/-- The canonical form of an array of `size` bytes, from index `lo` on: indices strictly rise and stay below `size`, and
no entry equals the unlisted byte. -/
def Memory.wfFrom (size : Nat) : Nat → Memory → Bool
  | _, [] => true
  | lo, (k, v) :: rest =>
    decide (lo ≤ k) && decide (k < size) && decide (v ≠ Memory.unlisted) && Memory.wfFrom size (k + 1) rest

/-- The canonical form of an array of `size` bytes. -/
def Memory.wf (size : Nat) (m : Memory) : Bool :=
  Memory.wfFrom size 0 m

/-- The array that holds the bytes of a list from index `base` on, in canonical form. -/
def Memory.ofBytes (base : Nat) : List Byte → Memory
  | [] => []
  | b :: rest =>
    if b = Memory.unlisted then Memory.ofBytes (base + 1) rest
    else (base, b) :: Memory.ofBytes (base + 1) rest

/-! ## The ALU (`alu_arithmetic_logic`, 40_arithmetic_logic.md) -/

/-- The operation the decoder hands the ALU (44_fetch_execute_cycle.md R108). -/
inductive AluOp where
  /-- Addition modulo 255 (40_arithmetic_logic.md R75). -/
  | addMod
  /-- Bitwise AND (40_arithmetic_logic.md R76). -/
  | and
  deriving DecidableEq, Repr

/-- The sum of two bytes "added as natural numbers without any intermediate wrap", then reduced once modulo 255
(40_arithmetic_logic.md R75). -/
def addMod (a b : Byte) : Byte :=
  BitVec.ofNat 8 ((a.toNat + b.toNat) % Config.modulus)

/-- The result byte of the ALU: an AND is exact and never reduced (40_arithmetic_logic.md R76). -/
def alu : AluOp → Byte → Byte → Byte
  | .addMod, a, b => addMod a b
  | .and, a, b => a &&& b

end Sys2Proof.Machine
end

