-- ==== Sys2Proof/Machine/Operands.lean ====
section
/-! DEFINITION. The operand forms: an address through `get` and `set` (10_state.md R16), and an immediate
(30_encoding.md R55). The address codes themselves are read by `decodeAddr` (Decode.lean). -/

namespace Sys2Proof.Machine

/-- `x[a]`, the `get` accessor (10_state.md R16): a cell's byte; the constant of the IO stub (R17); 0 for an unrecognised
address (R18), whatever its byte. -/
def getOperand (a : Addr) (s : State) : Byte :=
  match a with
  | .cell r => s.cell r
  | .io => Config.ioRead
  | .unrecognised _ => 0

/-- `x[a] <- v`, the `set` accessor (10_state.md R16): a cell takes the byte as given; a write to IO (R17) or to an
unrecognised address (R18) is discarded. -/
def setOperand (a : Addr) (v : Byte) (s : State) : State :=
  match a with
  | .cell r => s.setCell r v
  | .io => s
  | .unrecognised _ => s

/-- An immediate operand: "the operand byte itself", zero extended, never looked up as an address (30_encoding.md R55). -/
def immOperand (imm : Byte) : Byte :=
  imm

end Sys2Proof.Machine
end

