-- ==== Sys2Proof/Machine/HostInterface.lean ====
section
/-! DEFINITION. What the outside does to the machine between ticks (44_fetch_execute_cycle.md R109): it supplies the
program, resets, and observes through `get`. These are functions on State and no part of step (log 14). -/

namespace Sys2Proof.Machine

/-- The host supplies the program: its length is `PROG_LEN` and every byte is supplied (44_fetch_execute_cycle.md R109;
70_reset_and_hazards.md R142, R143). -/
def State.loadProgram (s : State) (bytes : List Byte) : State :=
  { s with prog := Memory.ofBytes 0 bytes, progLen := bytes.length }

/-- The reset event: every cell goes to its reset value, and the program store is left alone (70_reset_and_hazards.md
R140). -/
def State.resetEvent (s : State) : State :=
  { State.reset with prog := s.prog, progLen := s.progLen }

/-- The observation `get(a)` of a byte `a` between ticks (10_state.md R26). -/
def State.observe (cfg : Config) (s : State) (a : Byte) : Byte :=
  getOperand (decodeAddr cfg a) s

/-- The program store with the four bytes of an instruction at the PC, and long enough for their fetch (DESIGN CHOICE,
log 3). -/
def placeAtPc (w : InstrBytes) (s : State) : State :=
  let pc := s.regs.pc.toNat
  let prog := (((s.prog.write pc w.opcode).write (pc + 1) w.arg1).write (pc + 2) w.arg2).write (pc + 3) w.arg3
  { s with prog := prog, progLen := max s.progLen (pc + 4) }

end Sys2Proof.Machine
end

