-- ==== Sys2Proof/Machine/ArithmeticLogic.lean ====
section
/-! DEFINITION. The execute step of ADD, ADDI, AND and ANDI (`alu_arithmetic_logic`, 40_arithmetic_logic.md). -/

namespace Sys2Proof.Machine

/-- What the family shares (40_arithmetic_logic.md R70): the operand values are read before it is called, one result byte
is computed, and one `set` writes it. -/
def aluToDestination (op : AluOp) (v1 v2 : Byte) (d : Addr) (s : State) : Host.Outcome State Fault Refusal :=
  .next (setOperand d (alu op v1 v2) s)

/-- ADD (40_arithmetic_logic.md R71). -/
def execAdd (s1 s2 d : Addr) (s : State) : Host.Outcome State Fault Refusal :=
  aluToDestination .addMod (getOperand s1 s) (getOperand s2 s) d s

/-- ADDI (40_arithmetic_logic.md R72). -/
def execAddi (src : Addr) (imm : Byte) (d : Addr) (s : State) : Host.Outcome State Fault Refusal :=
  aluToDestination .addMod (getOperand src s) (immOperand imm) d s

/-- AND (40_arithmetic_logic.md R73). -/
def execAnd (s1 s2 d : Addr) (s : State) : Host.Outcome State Fault Refusal :=
  aluToDestination .and (getOperand s1 s) (getOperand s2 s) d s

/-- ANDI (40_arithmetic_logic.md R74). -/
def execAndi (src : Addr) (imm : Byte) (d : Addr) (s : State) : Host.Outcome State Fault Refusal :=
  aluToDestination .and (getOperand src s) (immOperand imm) d s

end Sys2Proof.Machine
end

