-- ==== Sys2Proof/Machine/ConditionalJump.lean ====
section
/-! DEFINITION. The execute step of IFEQ (`conditional_jump_control`, 41_conditional_jump.md). IFNE, which has no handler,
stands in NoHandler.lean. -/

namespace Sys2Proof.Machine

/-- A jump that is taken when its relation holds (41_conditional_jump.md R80, R84): the target is stored exactly as given
and the jump flag is raised; otherwise nothing. -/
def jumpWhen (taken : Bool) (target : Byte) (s : State) : Host.Outcome State Fault Refusal :=
  if taken then .next (s.setCell .pc target).raiseJump else .next s

/-- IFEQ (41_conditional_jump.md R80): equality of two unsigned bytes, nothing else. -/
def execIfeq (a b : Addr) (target : Byte) (s : State) : Host.Outcome State Fault Refusal :=
  jumpWhen (getOperand a s == getOperand b s) (immOperand target) s

end Sys2Proof.Machine
end

