-- ==== Sys2Proof/Machine/NoHandler.lean ====
section
/-! DEFINITION. The execute step of the opcodes without a handler: IFNE (41_conditional_jump.md R82), LOAD and SAVE
(42_reserved_and_unassigned.md R90), and every unassigned opcode byte (R91). -/

namespace Sys2Proof.Machine

/-- The no-op (42_reserved_and_unassigned.md R92): "the execute step reads no operand and writes nothing". -/
def noOperation (s : State) : Host.Outcome State Fault Refusal :=
  .next s

/-- IFNE, "no handler in this revision" (41_conditional_jump.md R82). -/
def execIfne (_arg1 _arg2 _arg3 : Byte) (s : State) : Host.Outcome State Fault Refusal :=
  noOperation s

/-- LOAD, reserved (42_reserved_and_unassigned.md R90). -/
def execLoad (_arg1 _arg2 _arg3 : Byte) (s : State) : Host.Outcome State Fault Refusal :=
  noOperation s

/-- SAVE, reserved (42_reserved_and_unassigned.md R90). -/
def execSave (_arg1 _arg2 _arg3 : Byte) (s : State) : Host.Outcome State Fault Refusal :=
  noOperation s

/-- Every opcode byte that names nothing (42_reserved_and_unassigned.md R91). -/
def execUnassigned (_opcode _arg1 _arg2 _arg3 : Byte) (s : State) : Host.Outcome State Fault Refusal :=
  noOperation s

end Sys2Proof.Machine
end

