-- ==== Sys2Proof/Machine/Dispatch.lean ====
section
/-! DEFINITION. The dispatch of the execute step (44_fetch_execute_cycle.md R103): one arm per instruction. The fetch
before it and the PC update after it stand in Fetch.lean, PcUpdater.lean and Tick.lean (log 7). -/

namespace Sys2Proof.Machine

/-- The execute step of one instruction (44_fetch_execute_cycle.md R100 step 2, R103). -/
def exec (i : Instr) (s : State) : Host.Outcome State Fault Refusal :=
  match i with
  | .add s1 s2 d => Sys2Proof.Machine.execAdd s1 s2 d s
  | .addi src imm d => Sys2Proof.Machine.execAddi src imm d s
  | .and s1 s2 d => Sys2Proof.Machine.execAnd s1 s2 d s
  | .andi src imm d => Sys2Proof.Machine.execAndi src imm d s
  | .ifeq a b target => Sys2Proof.Machine.execIfeq a b target s
  | .ifne arg1 arg2 arg3 => Sys2Proof.Machine.execIfne arg1 arg2 arg3 s
  | .load arg1 arg2 arg3 => Sys2Proof.Machine.execLoad arg1 arg2 arg3 s
  | .save arg1 arg2 arg3 => Sys2Proof.Machine.execSave arg1 arg2 arg3 s
  | .unassigned opcode arg1 arg2 arg3 => Sys2Proof.Machine.execUnassigned opcode arg1 arg2 arg3 s

end Sys2Proof.Machine
end

