-- ==== Sys2Proof/Machine/Fetch.lean ====
section
/-! DEFINITION. The fetch unit (`fetch_unit`, 44_fetch_execute_cycle.md R101, R102). -/

namespace Sys2Proof.Machine

/-- The byte `prog[i]` of the program store (00_scope.md R7). It means something for `i < PROG_LEN` only. -/
def State.progByte (s : State) (i : Nat) : Byte :=
  s.prog.read i

/-- `ProgRead(i)` (00_scope.md R7): `prog[i]`, or `raise FetchOverrun(i)` at or beyond `PROG_LEN`
(44_fetch_execute_cycle.md R102; log 6). -/
def progRead (s : State) (i : Nat) : Except Fault Byte :=
  if i < s.progLen then .ok (s.progByte i) else .error (.fetchOverrun i s.regs.pc)

/-- The four bytes at the PC, read in order; the indices are natural numbers and do not wrap (44_fetch_execute_cycle.md
R101; 20_memory.md R38). -/
def fetch (s : State) : Except Fault InstrBytes := do
  let opcode ← progRead s s.regs.pc.toNat
  let arg1 ← progRead s (s.regs.pc.toNat + 1)
  let arg2 ← progRead s (s.regs.pc.toNat + 2)
  let arg3 ← progRead s (s.regs.pc.toNat + 3)
  return ⟨opcode, arg1, arg2, arg3⟩

end Sys2Proof.Machine
end

