-- ==== Sys2Proof/Machine/PcUpdater.lean ====
section
/-! DEFINITION. The program-counter updater (`program_counter_updater`, 44_fetch_execute_cycle.md R104 to R106). -/

namespace Sys2Proof.Machine

/-- The sequential successor `(pc + 4) mod 255`, a natural number reduced once (44_fetch_execute_cycle.md R105). -/
def nextPc (pc : Byte) : Byte :=
  BitVec.ofNat 8 ((pc.toNat + Config.pcStep) % Config.modulus)

/-- The advance: a signalled jump clears the flag and leaves the PC as the handler set it (R104); otherwise the PC, read
now, after execute, goes on to its successor (R105, R106). -/
def advance (s : State) : State :=
  if s.jf then s.lowerJump else s.setCell .pc (nextPc s.regs.pc)

end Sys2Proof.Machine
end

