-- ==== Sys2Proof/Machine/Tick.lean ====
section
/-! DEFINITION. The tick: fetch, execute, advance, atomically and in this order (44_fetch_execute_cycle.md R100). -/

namespace Sys2Proof.Machine

/-- The instruction the next tick of this state runs, or the fault of its fetch (44_fetch_execute_cycle.md R101 to
R103). -/
def fetchedInstr (cfg : Config) (s : State) : Except Fault Instr :=
  (fetch s).map (decode cfg)

/-- Execute and advance: `jf <- 0`, the handler, the PC update (44_fetch_execute_cycle.md R100 steps 2 and 3). -/
def executeAndAdvance (i : Instr) (s : State) : Host.Outcome State Fault Refusal :=
  match exec i s.lowerJump with
  | .next t => .next (advance t)
  | .fault r => .fault r
  | .refused r => .refused r

/-- One tick under a record of codes (44_fetch_execute_cycle.md R100). An overrun stops it before anything changes
(R102). -/
def tick (cfg : Config) (s : State) : Host.Outcome State Fault Refusal :=
  match fetchedInstr cfg s with
  | .ok i => executeAndAdvance i s
  | .error r => .fault r

end Sys2Proof.Machine
end

