-- ==== Sys2Proof/Machine/Step.lean ====
section
/-! DEFINITION. The step of the machine with the default codes, and the host's placing of one instruction. -/

namespace Sys2Proof.Machine

/-- One tick of the machine with the default codes of 30_encoding.md R54 and R56 (44_fetch_execute_cycle.md R100;
log 4). -/
def step (s : State) : Host.Outcome State Fault Refusal :=
  tick defaultConfig s

/-- The state with one word of spec/opcode_table.json stored where the next step fetches (log 3, log 12). -/
def State.withFetchWord (s : State) (nbits w : Nat) : State :=
  placeAtPc (tableWordBytes nbits w) s

end Sys2Proof.Machine
end

