-- ==== Sys2Proof/Safety.lean ====
section
/-! DEFINITION. The terms claims are made in: what stays the same, which states are good, what a safe run keeps. -/

namespace Sys2Proof

/-- The address an instruction writes: "a general-purpose register changes only when an ADD, ADDI, AND or ANDI names it as
destination" (10_state.md R12). -/
def Instr.destination : Instr → Option Addr
  | .add _ _ d => some d
  | .addi _ _ d => some d
  | .and _ _ d => some d
  | .andi _ _ d => some d
  | .ifeq _ _ _ => none
  | .ifne _ _ _ => none
  | .load _ _ _ => none
  | .save _ _ _ => none
  | .unassigned _ _ _ _ => none

/-- The five opcode codes with a handler (44_fetch_execute_cycle.md R103). -/
def Config.handlerCodes (c : Config) : List Byte :=
  [c.opAdd, c.opAddi, c.opAnd, c.opAndi, c.opIfeq]

/-- An address with its cell renamed. -/
def Addr.rename (σ : Reg → Reg) : Addr → Addr
  | .cell r => .cell (σ r)
  | .io => .io
  | .unrecognised b => .unrecognised b

/-- An instruction with every cell it names renamed. -/
def Instr.rename (σ : Reg → Reg) : Instr → Instr
  | .add s1 s2 d => .add (s1.rename σ) (s2.rename σ) (d.rename σ)
  | .addi s imm d => .addi (s.rename σ) imm (d.rename σ)
  | .and s1 s2 d => .and (s1.rename σ) (s2.rename σ) (d.rename σ)
  | .andi s imm d => .andi (s.rename σ) imm (d.rename σ)
  | .ifeq a b target => .ifeq (a.rename σ) (b.rename σ) target
  | .ifne b1 b2 b3 => .ifne b1 b2 b3
  | .load b1 b2 b3 => .load b1 b2 b3
  | .save b1 b2 b3 => .save b1 b2 b3
  | .unassigned op b1 b2 b3 => .unassigned op b1 b2 b3

end Sys2Proof

namespace Sys2Proof.Machine

/-- Every byte of the program store, of RAM and of Stack reads as before, and `PROG_LEN` is as before. -/
def SameStores (s t : State) : Prop :=
  t.progLen = s.progLen ∧ (∀ i, t.progByte i = s.progByte i) ∧
    (∀ i, t.ram.read i = s.ram.read i) ∧ (∀ i, t.stack.read i = s.stack.read i)

/-- REG0 to REG5 are as before. -/
def SameGeneralRegisters (s t : State) : Prop :=
  ∀ r, r ≠ .pc → t.cell r = s.cell r

/-- Nothing but the cell `r` differs: every other cell (the PC too), the jump flag and every byte of memory is as
before. -/
def OnlyCellChanges (r : Reg) (s t : State) : Prop :=
  (∀ r', r' ≠ r → t.cell r' = s.cell r') ∧ t.jf = s.jf ∧ SameStores s t

/-- A whole tick that advances the PC by 4 modulo 255 and changes nothing else (42_reserved_and_unassigned.md R92). -/
def OnlyPcAdvances (s t : State) : Prop :=
  t.regs.pc.toNat = (s.regs.pc.toNat + 4) % 255 ∧ SameGeneralRegisters s t ∧ t.jf = false ∧ SameStores s t

/-- A whole tick of an arithmetic or logic instruction that computes `v` for the destination `d`: a general register takes
`v` and the PC advances; a PC destination lands 4 beyond `v`, modulo 255 (44_fetch_execute_cycle.md R106); IO or an
unrecognised address discards `v` (10_state.md R17, R18). -/
def TickWrites (d : Addr) (v : Nat) (s t : State) : Prop :=
  t.jf = false ∧ SameStores s t ∧
    (∀ r, d = .cell r → r ≠ .pc → (t.cell r).toNat = v ∧ t.regs.pc.toNat = (s.regs.pc.toNat + 4) % 255 ∧
      ∀ r', r' ≠ r → r' ≠ .pc → t.cell r' = s.cell r') ∧
    (d = .cell .pc → t.regs.pc.toNat = (v + 4) % 255 ∧ SameGeneralRegisters s t) ∧
    ((∀ r, d ≠ .cell r) → OnlyPcAdvances s t)

/-- The four program-store bytes from an index on (44_fetch_execute_cycle.md R101). -/
def State.bytesAt (s : State) (i : Nat) : InstrBytes :=
  ⟨s.progByte i, s.progByte (i + 1), s.progByte (i + 2), s.progByte (i + 3)⟩

/-- The form of a state between ticks: the jump flag is 0 (10_state.md R15), and the three arrays are in canonical form
with every index inside the array (10_state.md R19, R21; log 10). -/
def State.wf (s : State) : Bool :=
  !s.jf && Memory.wf Config.ramSize s.ram && Memory.wf Config.stackSize s.stack && Memory.wf s.progLen s.prog

/-- The range law: "every stored value is in [0, 255)" (10_state.md R20). -/
def State.InRange (s : State) : Prop :=
  ∀ r, (s.cell r).toNat ≤ 254

/-- No IFEQ of the program, at whatever index it is decoded, has the target byte 255 (the part of the input contract that
10_state.md R20 needs; 70_reset_and_hazards.md R143). -/
def State.NoTarget255 (cfg : Config) (s : State) : Prop :=
  ∀ i, i + 3 < s.progLen → ∀ a b, decode cfg (s.bytesAt i) ≠ .ifeq a b 255

/-- A quiescent state: "one tick maps it to itself" (70_reset_and_hazards.md R148). -/
def State.Quiescent (cfg : Config) (s : State) : Prop :=
  tick cfg s = .next s

/-- A state whose next tick fetches inside the program store (70_reset_and_hazards.md R143 (a)). -/
def State.FetchInside (s : State) : Prop :=
  s.regs.pc.toNat + 3 < s.progLen

/-- Two states that agree on the registers, on `PROG_LEN` and on every byte of the program store. Their jump flag, RAM and
Stack may differ (44_fetch_execute_cycle.md R107). -/
def SameRegistersAndProgram (s s' : State) : Prop :=
  s'.regs = s.regs ∧ s'.progLen = s.progLen ∧ ∀ n, n < s.progLen → s'.progByte n = s.progByte n

/-- The next tick is a self-jump of one of the two kinds of 70_reset_and_hazards.md R148: with the flag down, a taken IFEQ
whose target is its own address, or `ADDI IO, (pc - 4) mod 255, PC` at a PC up to 254 (log 15). -/
def State.AtSelfJump (cfg : Config) (s : State) : Prop :=
  s.jf = false ∧
    ((∃ a b, fetchedInstr cfg s = .ok (.ifeq a b s.regs.pc) ∧ getOperand a s = getOperand b s) ∨
      (s.regs.pc.toNat ≤ 254 ∧ ∃ imm : Byte, fetchedInstr cfg s = .ok (.addi .io imm (.cell .pc)) ∧
        imm.toNat = (s.regs.pc.toNat + 251) % 255))

/-- `s'` is `s` with its cells renamed, and nothing else differs. -/
def State.RenamedTo (σ : Reg → Reg) (s s' : State) : Prop :=
  (∀ r, s'.cell (σ r) = s.cell r) ∧ s'.jf = s.jf ∧ s'.ram = s.ram ∧ s'.stack = s.stack ∧ s'.prog = s.prog ∧
    s'.progLen = s.progLen

end Sys2Proof.Machine
end

