-- ==== Sys2Proof/Certificates/Slice0/Obligations.lean ====
section
/-! DEFINITION. The statements for the provers. Each docstring says which rule of spec/ it formalises.

`exec` is the execute step (40_arithmetic_logic.md, 41_conditional_jump.md, 42_reserved_and_unassigned.md); `tick cfg` is
a whole tick under a record of codes, and `step` is `tick defaultConfig` (44_fetch_execute_cycle.md R100). -/

open Sys2Proof Sys2Proof.Machine

/-! ## Encoding -/

/-- Decoding the encoding of a well-formed instruction gives it back, under every record of pairwise distinct codes:
"must round-trip through encode/decode without collision" (00_scope.md R5; 30_encoding.md R53, R54, R56, R59). That IFNE, LOAD,
SAVE and the unassigned opcodes keep their names and operand bytes, where R59 answers one NOP, is the model's choice (log 11). -/
def Obligations.DecodeOfEncode : Prop :=
  ∀ cfg : Config, cfg.Distinct → ∀ i : Instr, i.wf cfg = true → decode cfg (encode cfg i) = i

/-- Encoding what four bytes decode to gives the four bytes back: no byte is dropped. For the five opcodes with a handler this
is 30_encoding.md R59, which passes the operand bytes on as they are. For the opcodes without one it is the model's choice
(log 11): R59 answers one NOP for them all, and R60 says only that their operand bytes are ignored. -/
def Obligations.EncodeOfDecode : Prop :=
  ∀ (cfg : Config) (w : InstrBytes), encode cfg (decode cfg w) = w

/-- Every four bytes are a well-formed instruction that runs, and an opcode byte without a handler does nothing but let
the PC advance (30_encoding.md R58). -/
def Obligations.EveryEncodingRuns : Prop :=
  ∀ (cfg : Config) (w : InstrBytes),
    (decode cfg w).wf cfg = true ∧
    (∀ s, ∃ t, exec (decode cfg w) s = .next t) ∧
    (w.opcode ∉ cfg.handlerCodes → ∀ s, exec (decode cfg w) s = .next s) ∧
    (∀ s, s.FetchInside → s.bytesAt s.regs.pc.toNat = w →
      ∃ t, tick cfg s = .next t ∧ (w.opcode ∉ cfg.handlerCodes → OnlyPcAdvances s t))

/-- The opcode map with the default codes, and the kind of each operand position (30_encoding.md R53, R56). The numbers
are the spec's decision D1 (log 4). That the opcodes without a handler decode to terms that keep their names and bytes, where
R59 answers one NOP, is the model's choice (log 11). -/
def Obligations.DefaultOpcodeMap : Prop :=
  ∀ b1 b2 b3 : Byte,
    decode defaultConfig ⟨0x00, b1, b2, b3⟩ =
      .add (decodeAddr defaultConfig b1) (decodeAddr defaultConfig b2) (decodeAddr defaultConfig b3) ∧
    decode defaultConfig ⟨0x01, b1, b2, b3⟩ = .addi (decodeAddr defaultConfig b1) b2 (decodeAddr defaultConfig b3) ∧
    decode defaultConfig ⟨0x02, b1, b2, b3⟩ =
      .and (decodeAddr defaultConfig b1) (decodeAddr defaultConfig b2) (decodeAddr defaultConfig b3) ∧
    decode defaultConfig ⟨0x03, b1, b2, b3⟩ = .andi (decodeAddr defaultConfig b1) b2 (decodeAddr defaultConfig b3) ∧
    decode defaultConfig ⟨0x40, b1, b2, b3⟩ = .ifeq (decodeAddr defaultConfig b1) (decodeAddr defaultConfig b2) b3 ∧
    decode defaultConfig ⟨0x41, b1, b2, b3⟩ = .ifne b1 b2 b3 ∧
    decode defaultConfig ⟨0x80, b1, b2, b3⟩ = .load b1 b2 b3 ∧
    decode defaultConfig ⟨0x81, b1, b2, b3⟩ = .save b1 b2 b3 ∧
    (∀ op : Byte, op ∉ ([0x00, 0x01, 0x02, 0x03, 0x40, 0x41, 0x80, 0x81] : List Byte) →
      decode defaultConfig ⟨op, b1, b2, b3⟩ = .unassigned op b1 b2 b3)

/-- The address codes with the default codes: 0 to 5 are REG0 to REG5, 6 is PC, 7 is IO, every byte from 8 on is
unrecognised (30_encoding.md R54). The numbers are the spec's decision D2 (log 4). -/
def Obligations.DefaultAddressCodes : Prop :=
  decodeAddr defaultConfig 0 = .cell .reg0 ∧ decodeAddr defaultConfig 1 = .cell .reg1 ∧
  decodeAddr defaultConfig 2 = .cell .reg2 ∧ decodeAddr defaultConfig 3 = .cell .reg3 ∧
  decodeAddr defaultConfig 4 = .cell .reg4 ∧ decodeAddr defaultConfig 5 = .cell .reg5 ∧
  decodeAddr defaultConfig 6 = .cell .pc ∧ decodeAddr defaultConfig 7 = .io ∧
  ∀ b : Byte, 8 ≤ b.toNat → decodeAddr defaultConfig b = .unrecognised b

/-- A few words written out from the encoding column of the opcode table decode to their instructions (30_encoding.md
R51, R56; 95_test_vectors.md S1, S2, S3, A9, M1, U1, U3, U4, U5). The numbers are the spec's decisions D1 and D2
(log 4); the terms of the four words without a handler are the model's (log 11). -/
def Obligations.SampleWordsDecode : Prop :=
  decodeTableWord 32 0x00060701 = some (.add (.cell .pc) .io (.cell .reg1)) ∧
  decodeTableWord 32 0x01000500 = some (.addi (.cell .reg0) 5 (.cell .reg0)) ∧
  decodeTableWord 32 0x02000102 = some (.and (.cell .reg0) (.cell .reg1) (.cell .reg2)) ∧
  decodeTableWord 32 0x03020F03 = some (.andi (.cell .reg2) 0x0F (.cell .reg3)) ∧
  decodeTableWord 32 0x40020300 = some (.ifeq (.cell .reg2) (.cell .reg3) 0) ∧
  decodeTableWord 32 0x41000100 = some (.ifne 0 1 0) ∧
  decodeTableWord 32 0x80010203 = some (.load 1 2 3) ∧
  decodeTableWord 32 0x81000000 = some (.save 0 0 0) ∧
  decodeTableWord 32 0xFF010203 = some (.unassigned 0xFF 1 2 3)

/-- The word notation: `W = opcode * 2^24 + arg1 * 2^16 + arg2 * 2^8 + arg3` names the four bytes one to one, and the
table's word decodes as its four bytes do (30_encoding.md R51; log 12). -/
def Obligations.WordNotationIsFaithful : Prop :=
  (∀ w : InstrBytes, w.toWord < 2 ^ 32 ∧ InstrBytes.ofWord w.toWord = w) ∧
  (∀ n : Nat, n < 2 ^ 32 → (InstrBytes.ofWord n).toWord = n) ∧
  (∀ w : InstrBytes, decodeTableWord 32 w.toWord = some (decode defaultConfig w))

/-- Every instruction is four bytes: the decoder takes exactly four from a longer list and says how many there were
otherwise (30_encoding.md R50, R61). -/
def Obligations.InstructionsAreFourBytes : Prop :=
  (∀ (cfg : Config) (w : InstrBytes) (rest : List Byte),
    decodeBytes cfg (w.toList ++ rest) = .ok (decode cfg w, rest)) ∧
  (∀ (cfg : Config) (bytes : List Byte), bytes.length < 4 →
    decodeBytes cfg bytes = .error (.truncated bytes.length))

/-! ## The operand namespace -/

/-- The accessors `get` and `set` by address-code byte: a register or the PC reads its cell, IO and every unrecognised
byte read 0; a write stores the byte as given in the cell the code names, and in no other, and is discarded by IO and by
every unrecognised byte (10_state.md R16). -/
def Obligations.OperandAccessors : Prop :=
  ∀ cfg : Config, cfg.Distinct → ∀ s : State,
    (s.observe cfg cfg.aReg0 = s.cell .reg0 ∧ s.observe cfg cfg.aReg1 = s.cell .reg1 ∧
      s.observe cfg cfg.aReg2 = s.cell .reg2 ∧ s.observe cfg cfg.aReg3 = s.cell .reg3 ∧
      s.observe cfg cfg.aReg4 = s.cell .reg4 ∧ s.observe cfg cfg.aReg5 = s.cell .reg5 ∧
      s.observe cfg cfg.aPc = s.cell .pc ∧ s.observe cfg cfg.aIo = 0) ∧
    (∀ a, a ∉ cfg.addressCodes → s.observe cfg a = 0) ∧
    (∀ a b v : Byte,
      (setOperand (decodeAddr cfg a) v s).observe cfg b =
        if b = a ∧ a ∈ cfg.addressCodes ∧ a ≠ cfg.aIo then v else s.observe cfg b) ∧
    (∀ a v : Byte, (setOperand (decodeAddr cfg a) v s).jf = s.jf ∧ SameStores s (setOperand (decodeAddr cfg a) v s) ∧
      ((a ∉ cfg.addressCodes ∨ a = cfg.aIo) → setOperand (decodeAddr cfg a) v s = s))

/-- IO reads the constant 0 and discards writes, exactly as an unrecognised address does (10_state.md R17). -/
def Obligations.IoIsAStub : Prop :=
  ∀ (b v : Byte) (s : State),
    getOperand .io s = 0 ∧ setOperand .io v s = s ∧
    getOperand .io s = getOperand (.unrecognised b) s ∧ setOperand .io v s = setOperand (.unrecognised b) v s

/-- An unrecognised byte in an address position reads 0 (never its own number), and a write to it changes nothing, for
every such byte and state; with the default codes these are the bytes from 8 on (10_state.md R18). -/
def Obligations.UnrecognisedAddressesAreInert : Prop :=
  (∀ cfg : Config, ∀ a : Byte, a ∉ cfg.addressCodes → ∀ (v : Byte) (s : State),
    s.observe cfg a = 0 ∧ setOperand (decodeAddr cfg a) v s = s ∧
    (∀ s2 d : Addr, exec (.add (decodeAddr cfg a) s2 d) s =
      .next (setOperand d (BitVec.ofNat 8 ((0 + (getOperand s2 s).toNat) % 255)) s))) ∧
  (∀ a : Byte, a ∉ defaultConfig.addressCodes ↔ 8 ≤ a.toNat)

/-! ## Arithmetic and logic -/

/-- ADD: the encoding, the operands and the whole execute step (40_arithmetic_logic.md R71). The instruction always
completes; a cell destination takes `(x[s1] + x[s2]) mod 255`, read before the write, and nothing else changes; IO or an
unrecognised destination changes nothing; IO or an unrecognised source counts 0. The default number is the spec's decision
D1 (log 4). -/
def Obligations.AddResult : Prop :=
  (∀ cfg : Config, cfg.Distinct → ∀ b1 b2 b3 : Byte,
    decode cfg ⟨cfg.opAdd, b1, b2, b3⟩ = .add (decodeAddr cfg b1) (decodeAddr cfg b2) (decodeAddr cfg b3)) ∧
  defaultConfig.opAdd = 0x00 ∧
  (∀ (s : State) (b : Byte), getOperand .io s = 0 ∧ getOperand (.unrecognised b) s = 0) ∧
  ∀ (s1 s2 d : Addr) (s : State), ∃ t, exec (.add s1 s2 d) s = .next t ∧
    (∀ r, d = .cell r →
      (t.cell r).toNat = ((getOperand s1 s).toNat + (getOperand s2 s).toNat) % 255 ∧ OnlyCellChanges r s t) ∧
    ((∀ r, d ≠ .cell r) → t = s)

/-- ADDI: the encoding, the operands and the whole execute step (40_arithmetic_logic.md R72). The immediate is the byte
itself, whatever address code it equals. The default number is the spec's decision D1 (log 4). -/
def Obligations.AddiResult : Prop :=
  (∀ cfg : Config, cfg.Distinct → ∀ b1 b2 b3 : Byte,
    decode cfg ⟨cfg.opAddi, b1, b2, b3⟩ = .addi (decodeAddr cfg b1) b2 (decodeAddr cfg b3)) ∧
  defaultConfig.opAddi = 0x01 ∧
  ∀ (src : Addr) (imm : Byte) (d : Addr) (s : State), ∃ t, exec (.addi src imm d) s = .next t ∧
    (∀ r, d = .cell r →
      (t.cell r).toNat = ((getOperand src s).toNat + imm.toNat) % 255 ∧ OnlyCellChanges r s t) ∧
    ((∀ r, d ≠ .cell r) → t = s)

/-- AND: the encoding, the operands and the whole execute step (40_arithmetic_logic.md R73). The result is exact, never
reduced. The default number is the spec's decision D1 (log 4). -/
def Obligations.AndResult : Prop :=
  (∀ cfg : Config, cfg.Distinct → ∀ b1 b2 b3 : Byte,
    decode cfg ⟨cfg.opAnd, b1, b2, b3⟩ = .and (decodeAddr cfg b1) (decodeAddr cfg b2) (decodeAddr cfg b3)) ∧
  defaultConfig.opAnd = 0x02 ∧
  (∀ (s : State) (b : Byte), getOperand .io s = 0 ∧ getOperand (.unrecognised b) s = 0) ∧
  ∀ (s1 s2 d : Addr) (s : State), ∃ t, exec (.and s1 s2 d) s = .next t ∧
    (∀ r, d = .cell r →
      (∀ n, (t.cell r).getLsbD n = ((getOperand s1 s).getLsbD n && (getOperand s2 s).getLsbD n)) ∧
      OnlyCellChanges r s t) ∧
    ((∀ r, d ≠ .cell r) → t = s)

/-- ANDI: the encoding, the operands and the whole execute step (40_arithmetic_logic.md R74). The default
number is the spec's decision D1 (log 4). -/
def Obligations.AndiResult : Prop :=
  (∀ cfg : Config, cfg.Distinct → ∀ b1 b2 b3 : Byte,
    decode cfg ⟨cfg.opAndi, b1, b2, b3⟩ = .andi (decodeAddr cfg b1) b2 (decodeAddr cfg b3)) ∧
  defaultConfig.opAndi = 0x03 ∧
  ∀ (src : Addr) (imm : Byte) (d : Addr) (s : State), ∃ t, exec (.andi src imm d) s = .next t ∧
    (∀ r, d = .cell r →
      (∀ n, (t.cell r).getLsbD n = ((getOperand src s).getLsbD n && imm.getLsbD n)) ∧ OnlyCellChanges r s t) ∧
    ((∀ r, d ≠ .cell r) → t = s)

/-- The addition laws of two bytes, case by case over the natural sum; the result is never 255; and how it differs from
the 8-bit sum (40_arithmetic_logic.md R75). R75's remark that it differs by 1 from 256 on fails at 510, where R75's own
table gives 0: the table is followed (log 18). -/
def Obligations.AdditionCaseTable : Prop :=
  ∀ a b : Byte,
    (a.toNat + b.toNat ≤ 254 → (alu .addMod a b).toNat = a.toNat + b.toNat) ∧
    (a.toNat + b.toNat = 255 → (alu .addMod a b).toNat = 0) ∧
    (256 ≤ a.toNat + b.toNat → a.toNat + b.toNat ≤ 509 → (alu .addMod a b).toNat = a.toNat + b.toNat - 255) ∧
    (a.toNat + b.toNat = 510 → (alu .addMod a b).toNat = 0) ∧
    (alu .addMod a b).toNat = (a.toNat + b.toNat) % 255 ∧
    (alu .addMod a b).toNat ≤ 254 ∧
    (a.toNat ≤ 254 → alu .addMod a 0 = a) ∧ alu .addMod 255 0 = 0 ∧
    (256 ≤ a.toNat + b.toNat → a.toNat + b.toNat ≤ 509 → (alu .addMod a b).toNat = (a + b).toNat + 1)

/-- The laws of AND: exact, bit by bit, at most either operand, and it cannot create the value 255
(40_arithmetic_logic.md R76). -/
def Obligations.AndLaws : Prop :=
  ∀ a b : Byte,
    (∀ n, (alu .and a b).getLsbD n = (a.getLsbD n && b.getLsbD n)) ∧
    (alu .and a b).toNat ≤ a.toNat ∧ (alu .and a b).toNat ≤ b.toNat ∧
    alu .and a 0 = 0 ∧ alu .and a a = a ∧ alu .and a 255 = a ∧
    ((a.toNat ≤ 254 ∨ b.toNat ≤ 254) → (alu .and a b).toNat ≤ 254)

/-- A whole tick of ADD or ADDI, for every destination: a general register takes the sum and the PC advances, a PC
destination lands 4 beyond the sum, anything else discards it (40_arithmetic_logic.md R71, R72, R77;
44_fetch_execute_cycle.md R105, R106). The PC destination rests on the spec's decision D4 (log 15). -/
def Obligations.AdditionTicks : Prop :=
  (∀ (cfg : Config) (s1 s2 d : Addr) (s : State), fetchedInstr cfg s = .ok (.add s1 s2 d) →
    ∃ t, tick cfg s = .next t ∧ TickWrites d (((getOperand s1 s).toNat + (getOperand s2 s).toNat) % 255) s t) ∧
  (∀ (cfg : Config) (src : Addr) (imm : Byte) (d : Addr) (s : State), fetchedInstr cfg s = .ok (.addi src imm d) →
    ∃ t, tick cfg s = .next t ∧ TickWrites d (((getOperand src s).toNat + imm.toNat) % 255) s t)

/-- A whole tick of AND or ANDI, for every destination (40_arithmetic_logic.md R73, R74, R77; 44_fetch_execute_cycle.md
R105, R106). The PC destination rests on the spec's decision D4 (log 15). -/
def Obligations.LogicTicks : Prop :=
  (∀ (cfg : Config) (s1 s2 d : Addr) (s : State), fetchedInstr cfg s = .ok (.and s1 s2 d) →
    ∃ t, tick cfg s = .next t ∧ TickWrites d (getOperand s1 s &&& getOperand s2 s).toNat s t) ∧
  (∀ (cfg : Config) (src : Addr) (imm : Byte) (d : Addr) (s : State), fetchedInstr cfg s = .ok (.andi src imm d) →
    ∃ t, tick cfg s = .next t ∧ TickWrites d (getOperand src s &&& imm).toNat s t)

/-! ## The conditional jump -/

/-- IFEQ: the encoding, the execute step, and the state after the whole tick. Taken: the PC is the target exactly as given
and the jump flag, raised by execute, is cleared by the advance. Not taken: execute changes nothing and the PC advances. No
general register changes (41_conditional_jump.md R80). The default number is the spec's decision D1 (log 4). -/
def Obligations.IfeqJumps : Prop :=
  (∀ cfg : Config, cfg.Distinct → ∀ b1 b2 b3 : Byte,
    decode cfg ⟨cfg.opIfeq, b1, b2, b3⟩ = .ifeq (decodeAddr cfg b1) (decodeAddr cfg b2) b3) ∧
  defaultConfig.opIfeq = 0x40 ∧
  (∀ (s : State) (b : Byte), getOperand .io s = 0 ∧ getOperand (.unrecognised b) s = 0) ∧
  (∀ (a b : Addr) (target : Byte) (s : State),
    (getOperand a s = getOperand b s → ∃ t, exec (.ifeq a b target) s = .next t ∧
      t.regs.pc = target ∧ t.jf = true ∧ SameGeneralRegisters s t ∧ SameStores s t) ∧
    (getOperand a s ≠ getOperand b s → exec (.ifeq a b target) s = .next s)) ∧
  (∀ (cfg : Config) (a b : Addr) (target : Byte) (s : State), fetchedInstr cfg s = .ok (.ifeq a b target) →
    ∃ t, tick cfg s = .next t ∧ SameGeneralRegisters s t ∧ t.jf = false ∧ SameStores s t ∧
      (getOperand a s = getOperand b s → t.regs.pc = target) ∧
      (getOperand a s ≠ getOperand b s → t.regs.pc.toNat = (s.regs.pc.toNat + 4) % 255))

/-! ## The opcodes without a handler -/

/-- IFNE does nothing, whatever its operand bytes: it must not jump (41_conditional_jump.md R82). The default
number is the spec's decision D1 (log 4). That its bytes decode to a term of their own, not to the NOP of R59, is the model's
choice (log 11). -/
def Obligations.IfneDoesNothing : Prop :=
  (∀ cfg : Config, cfg.Distinct → ∀ b1 b2 b3 : Byte, decode cfg ⟨cfg.opIfne, b1, b2, b3⟩ = .ifne b1 b2 b3) ∧
  defaultConfig.opIfne = 0x41 ∧
  (∀ (b1 b2 b3 : Byte) (s : State), exec (.ifne b1 b2 b3) s = .next s) ∧
  (∀ (cfg : Config) (b1 b2 b3 : Byte) (s : State), fetchedInstr cfg s = .ok (.ifne b1 b2 b3) →
    ∃ t, tick cfg s = .next t ∧ OnlyPcAdvances s t)

/-- LOAD and SAVE do nothing, whatever their operand bytes (42_reserved_and_unassigned.md R90). The default numbers are the
spec's decision D1 (log 4). That their bytes decode to terms of their own, not to the NOP of R59, is the model's choice
(log 11). -/
def Obligations.LoadAndSaveDoNothing : Prop :=
  (∀ cfg : Config, cfg.Distinct → ∀ b1 b2 b3 : Byte,
    decode cfg ⟨cfg.opLoad, b1, b2, b3⟩ = .load b1 b2 b3 ∧ decode cfg ⟨cfg.opSave, b1, b2, b3⟩ = .save b1 b2 b3) ∧
  defaultConfig.opLoad = 0x80 ∧ defaultConfig.opSave = 0x81 ∧
  (∀ (b1 b2 b3 : Byte) (s : State), exec (.load b1 b2 b3) s = .next s ∧ exec (.save b1 b2 b3) s = .next s) ∧
  (∀ (cfg : Config) (b1 b2 b3 : Byte) (s : State),
    (fetchedInstr cfg s = .ok (.load b1 b2 b3) ∨ fetchedInstr cfg s = .ok (.save b1 b2 b3)) →
    ∃ t, tick cfg s = .next t ∧ OnlyPcAdvances s t)

/-- Every opcode byte that is none of the eight named codes does nothing: no register changes and the PC advances
(42_reserved_and_unassigned.md R91). The default numbers are the spec's decision D1 (log 4). That its bytes decode to a term
of their own, not to the NOP of R59, is the model's choice (log 11). -/
def Obligations.UnassignedOpcodesDoNothing : Prop :=
  (∀ (cfg : Config) (op b1 b2 b3 : Byte), op ∉ cfg.opcodeCodes →
    decode cfg ⟨op, b1, b2, b3⟩ = .unassigned op b1 b2 b3) ∧
  (∀ op : Byte, op ∉ defaultConfig.opcodeCodes ↔
    (0x04 ≤ op.toNat ∧ op.toNat ≤ 0x3F) ∨ (0x42 ≤ op.toNat ∧ op.toNat ≤ 0x7F) ∨ 0x82 ≤ op.toNat) ∧
  (∀ (op b1 b2 b3 : Byte) (s : State), exec (.unassigned op b1 b2 b3) s = .next s) ∧
  (∀ (cfg : Config) (op b1 b2 b3 : Byte) (s : State), fetchedInstr cfg s = .ok (.unassigned op b1 b2 b3) →
    ∃ t, tick cfg s = .next t ∧ OnlyPcAdvances s t)

/-! ## The tick -/

/-- A step runs the decoded instruction: when the four bytes at the PC decode to `i`, the tick is the execute step of `i`
with the jump flag lowered, and then the PC update (44_fetch_execute_cycle.md R100, R101). `step` is the tick with the
default codes. -/
def Obligations.StepRunsTheDecodedInstruction : Prop :=
  (∀ (cfg : Config) (s : State) (i : Instr), s.FetchInside → decode cfg (s.bytesAt s.regs.pc.toNat) = i →
    tick cfg s =
      match exec i { s with jf := false } with
      | .next t => .next (if t.jf then { t with jf := false }
          else t.setCell .pc (BitVec.ofNat 8 ((t.regs.pc.toNat + 4) % 255)))
      | .fault r => .fault r
      | .refused r => .refused r) ∧
  ∀ s, step s = tick defaultConfig s

/-- The fetch reads the four bytes `prog[pc]` to `prog[pc+3]`, in that order, into opcode, arg1, arg2, arg3, at indices
that do not wrap (44_fetch_execute_cycle.md R101). -/
def Obligations.FetchReadsFourBytes : Prop :=
  ∀ s : State, s.regs.pc.toNat + 3 < s.progLen →
    fetch s = .ok ⟨s.progByte s.regs.pc.toNat, s.progByte (s.regs.pc.toNat + 1), s.progByte (s.regs.pc.toNat + 2),
      s.progByte (s.regs.pc.toNat + 3)⟩

/-- A fetch that passes the end of the program store faults, whatever the opcode, with the first offending index and the
PC (44_fetch_execute_cycle.md R102; 60_exceptions.md R122). The fault is the spec's decision D3 (log 6). -/
def Obligations.FetchOverrunFaults : Prop :=
  ∀ (cfg : Config) (s : State), s.progLen ≤ s.regs.pc.toNat + 3 →
    ∃ n, tick cfg s = .fault (.fetchOverrun n s.regs.pc) ∧ s.regs.pc.toNat ≤ n ∧ n ≤ s.regs.pc.toNat + 3 ∧
      s.progLen ≤ n ∧ ∀ j, s.regs.pc.toNat ≤ j → j < n → j < s.progLen

/-- A tick yields a next state exactly when its fetch stays inside the program store; it is never refused, and its only
fault is the overrun (44_fetch_execute_cycle.md R107; 60_exceptions.md R120, R121). Rests on the spec's decision D3
(log 6). -/
def Obligations.TickCompletesExactlyInside : Prop :=
  ∀ (cfg : Config) (s : State),
    ((∃ t, tick cfg s = .next t) ↔ s.regs.pc.toNat + 3 < s.progLen) ∧
    (∀ r, tick cfg s ≠ .refused r) ∧
    (∀ f, tick cfg s = .fault f → ∃ n, f = .fetchOverrun n s.regs.pc)

/-- With the default length of 255 bytes the PCs 0 to 251 fetch and 252 to 255 overrun; with 259 bytes or more none does
(44_fetch_execute_cycle.md R102). The length and the fault are the spec's decision D3 (log 1, log 6). -/
def Obligations.DefaultLengthRange : Prop :=
  ∀ s : State,
    (s.progLen = Config.defaultProgLen → ((∃ w, fetch s = .ok w) ↔ s.regs.pc.toNat ≤ 251)) ∧
    (259 ≤ s.progLen → ∃ w, fetch s = .ok w)

/-- The advance after a signalled jump clears the flag and touches nothing else, and only a taken IFEQ signals one
(44_fetch_execute_cycle.md R104). -/
def Obligations.SignalledJumpAdvance : Prop :=
  (∀ s : State, s.jf = true → advance s = { s with jf := false }) ∧
  (∀ (i : Instr) (s t : State), s.jf = false → exec i s = .next t → t.jf = true →
    ∃ a b target, i = .ifeq a b target ∧ getOperand a s = getOperand b s)

/-- The sequential advance: with the flag down the PC becomes `(pc + 4) mod 255`, a value up to 254, and nothing else
changes; that is the case after every instruction but a taken IFEQ; the table at the top of the range; and from 0 it
visits all 255 values, each once in 255 advances (44_fetch_execute_cycle.md R105). -/
def Obligations.SequentialAdvance : Prop :=
  (∀ s : State, s.jf = false →
    ((advance s).regs.pc.toNat = (s.regs.pc.toNat + 4) % 255 ∧ (advance s).regs.pc.toNat ≤ 254 ∧
      OnlyCellChanges .pc s (advance s))) ∧
  (∀ (i : Instr) (s : State), s.jf = false →
    (∀ a b target, i = .ifeq a b target → getOperand a s ≠ getOperand b s) →
    ∃ t, exec i s = .next t ∧ t.jf = false) ∧
  ([0, 4, 247, 248, 250, 251, 252, 253, 254, 255].map nextPc = [4, 8, 251, 252, 254, 0, 1, 2, 3, 4]) ∧
  (∀ n : Nat, (nextPc^[n] 0).toNat = 4 * n % 255) ∧
  (∀ v : Byte, v.toNat ≤ 254 → ∃! n, n < 255 ∧ nextPc^[n] 0 = v)

/-! ## Whole-machine rules -/

/-- No instruction stops: the execute step of every instruction answers a next state in every state
(40_arithmetic_logic.md R70; 60_exceptions.md R120). -/
def Obligations.NoInstructionStops : Prop :=
  ∀ (i : Instr) (s : State), ∃ t, exec i s = .next t

/-- The jump flag is 0 at the end of every tick, from any state (10_state.md R15). That State holds the flag is the
model's choice (log 8). -/
def Obligations.JumpFlagIsDownAfterEveryTick : Prop :=
  ∀ (cfg : Config) (s t : State), tick cfg s = .next t → t.jf = false

/-- A general-purpose register changes in a tick only when the instruction is an ADD, ADDI, AND or ANDI that names it as
destination; then all other general registers are unchanged; an ADD leaves exactly the sum in it; and neither the advance
nor anything between ticks changes one (10_state.md R12). -/
def Obligations.GeneralRegistersChangeOnlyAsDestination : Prop :=
  (∀ (cfg : Config) (s t : State) (r : Reg), r ≠ .pc → tick cfg s = .next t → t.cell r ≠ s.cell r →
    ∃ i, fetchedInstr cfg s = .ok i ∧ i.destination = some (.cell r) ∧
      (∀ r', r' ≠ r → r' ≠ .pc → t.cell r' = s.cell r') ∧
      (∀ s1 s2 d, i = .add s1 s2 d →
        (t.cell r).toNat = ((getOperand s1 s).toNat + (getOperand s2 s).toNat) % 255)) ∧
  (∀ s : State, SameGeneralRegisters s (advance s))

/-- Where the PC stands after a tick: at the target after a taken IFEQ; 4 beyond the value written, modulo 255, after an
arithmetic or logic instruction that names the PC as destination (the spec's decision D4, log 15); at `(pc + 4) mod 255`
after everything else. So only those two leave the sequence (10_state.md R13; 41_conditional_jump.md R81;
44_fetch_execute_cycle.md R106). -/
def Obligations.PcAfterTick : Prop :=
  (∀ (cfg : Config) (i : Instr) (s t u : State), fetchedInstr cfg s = .ok i → exec i { s with jf := false } = .next u →
    tick cfg s = .next t →
    (∀ a b target, i = .ifeq a b target → getOperand a s = getOperand b s → t.regs.pc = target) ∧
    (i.destination = some (.cell .pc) → t.regs.pc.toNat = (u.regs.pc.toNat + 4) % 255) ∧
    (i.destination ≠ some (.cell .pc) →
      (∀ a b target, i = .ifeq a b target → getOperand a s ≠ getOperand b s) →
      t.regs.pc.toNat = (s.regs.pc.toNat + 4) % 255)) ∧
  (∀ (cfg : Config) (s t : State), tick cfg s = .next t → t.regs.pc.toNat ≠ (s.regs.pc.toNat + 4) % 255 →
    ∃ i, fetchedInstr cfg s = .ok i ∧
      ((∃ a b target, i = .ifeq a b target ∧ getOperand a s = getOperand b s ∧ t.regs.pc = target) ∨
        i.destination = some (.cell .pc)))

/-- No instruction writes the program store, and none reads it as data: with another program in the store the execute step
does the same (20_memory.md R32). -/
def Obligations.ProgramStoreIsNeitherReadNorWritten : Prop :=
  (∀ (cfg : Config) (s t : State), tick cfg s = .next t → t.prog = s.prog ∧ t.progLen = s.progLen) ∧
  (∀ (i : Instr) (s t : State) (p : Memory) (n : Nat), exec i s = .next t →
    exec i { s with prog := p, progLen := n } = .next { t with prog := p, progLen := n })

/-- RAM and Stack are inert: no tick changes them, no instruction's effect depends on them, and from reset they hold zeros
for ever (10_state.md R19). That State holds them is the model's choice (log 9). -/
def Obligations.RamAndStackAreInert : Prop :=
  (∀ (cfg : Config) (s t : State), tick cfg s = .next t → t.ram = s.ram ∧ t.stack = s.stack) ∧
  (∀ (i : Instr) (s t : State) (m k : Memory), exec i s = .next t →
    exec i { s with ram := m, stack := k } = .next { t with ram := m, stack := k }) ∧
  (∀ n, State.reset.ram.read n = 0 ∧ State.reset.stack.read n = 0)

/-- The next state depends only on the current registers and the program bytes: two states that agree on those have the
same outcome, whatever their jump flag, RAM and Stack. Either both ticks answer next states that agree on them again, and
on the flag, so the relation is kept step by step; or both fault alike (44_fetch_execute_cycle.md R107; 10_state.md
R26). -/
def Obligations.OutcomeDependsOnRegistersAndProgramOnly : Prop :=
  ∀ (cfg : Config) (s s' : State), SameRegistersAndProgram s s' →
    (∃ t t', tick cfg s = .next t ∧ tick cfg s' = .next t' ∧ SameRegistersAndProgram t t' ∧ t'.jf = t.jf) ∨
    (∃ f, tick cfg s = .fault f ∧ tick cfg s' = .fault f)

/-- Everything that changes a state keeps its form: a step, a tick under any record of codes, a reset event, the load of
any program, the placing of any word. The form: flag down, the three arrays canonical and inside their sizes (10_state.md
R15, R19, R21). The canonical form is the model's own (log 10). -/
def Obligations.EveryTransitionKeepsWf : Prop :=
  (∀ s t : State, s.wf = true → step s = .next t → t.wf = true) ∧
  (∀ (cfg : Config) (s t : State), s.wf = true → tick cfg s = .next t → t.wf = true) ∧
  (∀ s : State, s.wf = true → s.resetEvent.wf = true) ∧
  (∀ (s : State) (bytes : List Byte), s.wf = true → (s.loadProgram bytes).wf = true) ∧
  (∀ (s : State) (nbits w : Nat), s.wf = true → (s.withFetchWord nbits w).wf = true)

/-- The form of a state holds at reset, with the empty program of State.reset (log 2) and with any program loaded. -/
def Obligations.WfHoldsAtReset : Prop :=
  State.reset.wf = true ∧ ∀ bytes : List Byte, (State.reset.loadProgram bytes).wf = true

/-- The range law: if every register is at most 254 and no IFEQ of the program has the target byte 255, then every tick
keeps both; so the value 255 is never stored (10_state.md R20, conflict C2). -/
def Obligations.RangeLaw : Prop :=
  ∀ (cfg : Config) (s t : State), s.InRange ∧ s.NoTarget255 cfg → tick cfg s = .next t →
    t.InRange ∧ t.NoTarget255 cfg

/-- Every register is at most 254 after reset, whatever program is loaded (10_state.md R20, R25). -/
def Obligations.RangeHoldsAtReset : Prop :=
  State.reset.InRange ∧ ∀ bytes : List Byte, (State.reset.loadProgram bytes).InRange

/-- The only way 255 enters a register of a state in range is a taken IFEQ with the target byte 255, and then only the PC
holds it (10_state.md R20). -/
def Obligations.Only255TargetsLeaveTheRange : Prop :=
  ∀ (cfg : Config) (s t : State), s.InRange → tick cfg s = .next t → ¬ t.InRange →
    t.regs.pc = 255 ∧ SameGeneralRegisters s t ∧
      ∃ a b, fetchedInstr cfg s = .ok (.ifeq a b 255) ∧ getOperand a s = getOperand b s

/-! ## Reset, the end of a run -/

/-- Reset puts every register, the jump flag, RAM and Stack to zero, and leaves the program alone (10_state.md R25). -/
def Obligations.ResetIsAllZero : Prop :=
  ∀ s : State,
    (∀ r, s.resetEvent.cell r = 0) ∧ s.resetEvent.jf = false ∧
    (∀ n, s.resetEvent.ram.read n = 0) ∧ (∀ n, s.resetEvent.stack.read n = 0) ∧
    s.resetEvent.prog = s.prog ∧ s.resetEvent.progLen = s.progLen ∧
    (∀ r, State.reset.cell r = 0) ∧ State.reset.jf = false ∧
    (∀ n, State.reset.ram.read n = 0) ∧ (∀ n, State.reset.stack.read n = 0)

/-- The reset vector is index 0: after reset the first tick fetches `prog[0 .. 3]` (70_reset_and_hazards.md R141). -/
def Obligations.FirstFetchIsAtZero : Prop :=
  ∀ s : State, 4 ≤ s.progLen →
    s.resetEvent.regs.pc = 0 ∧
    fetch s.resetEvent = .ok ⟨s.progByte 0, s.progByte 1, s.progByte 2, s.progByte 3⟩

/-- Two kinds of quiescent state: a taken IFEQ whose target is its own address, and `ADDI IO, (pc - 4) mod 255, PC`
(70_reset_and_hazards.md R148). -/
def Obligations.SelfJumpsAreQuiescent : Prop :=
  (∀ (cfg : Config) (s : State) (a b : Addr), s.jf = false →
    fetchedInstr cfg s = .ok (.ifeq a b s.regs.pc) → getOperand a s = getOperand b s → s.Quiescent cfg) ∧
  (∀ (cfg : Config) (s : State) (imm : Byte), s.jf = false → s.regs.pc.toNat ≤ 254 →
    fetchedInstr cfg s = .ok (.addi .io imm (.cell .pc)) → imm.toNat = (s.regs.pc.toNat + 251) % 255 →
    s.Quiescent cfg)

/-- Exactly which states are quiescent: the flag is down, and the fetched instruction is a taken IFEQ to its own address,
or an arithmetic or logic instruction that names the PC as destination and writes `(pc - 4) mod 255` there
(70_reset_and_hazards.md R148; the PC write is the spec's decision D4, log 15). -/
def Obligations.QuiescentExactlyBySelfJumpOrPcWrite : Prop :=
  ∀ (cfg : Config) (s : State), s.Quiescent cfg ↔
    s.jf = false ∧ ∃ i, fetchedInstr cfg s = .ok i ∧
      ((∃ a b, i = .ifeq a b s.regs.pc ∧ getOperand a s = getOperand b s) ∨
        (i.destination = some (.cell .pc) ∧
          ∃ u, exec i s = .next u ∧ (u.regs.pc.toNat + 4) % 255 = s.regs.pc.toNat))

/-- At a self-jump of this machine (the hypotheses of SelfJumpsAreQuiescent, for the default codes) a run stays for ever:
every number of ticks gives the state itself, and a run from elsewhere that reaches it has it as its result for every
later number of ticks (70_reset_and_hazards.md R147, R148). The convention "finished" is the spec's decision D8, the PC
write its decision D4 (log 15). -/
def Obligations.QuiescentRunsStay : Prop :=
  ∀ s : State, s.AtSelfJump defaultConfig →
    (∀ n : Nat, Host.Core.run Sys2Proof.core n s = .next s) ∧
    (∀ (s0 : State) (k n : Nat), Host.Core.run Sys2Proof.core k s0 = .next s → k ≤ n →
      Host.Core.run Sys2Proof.core n s0 = .next s)

/-! ## Symmetry, codes, the host's operations -/

/-- The six general-purpose registers are interchangeable: an instruction with its registers renamed by a permutation that
fixes the PC does, on the renamed state, the renamed effect (10_state.md R11). -/
def Obligations.GeneralRegistersAreInterchangeable : Prop :=
  ∀ (σ τ : Reg → Reg), (∀ r, τ (σ r) = r) → (∀ r, σ (τ r) = r) → σ .pc = .pc →
    ∀ (i : Instr) (s s' t : State), State.RenamedTo σ s s' → exec i s = .next t →
      ∃ t', exec (i.rename σ) s' = .next t' ∧ State.RenamedTo σ t t'

/-- The numeric codes do not matter: the same instruction encoded under two records of distinct codes gives the same
registers and flag, in a tick under each (92_eei_decisions.md D1, D2). -/
def Obligations.CodesDoNotMatter : Prop :=
  ∀ (cfg cfg' : Config) (i : Instr) (s s' : State), cfg.Distinct → cfg'.Distinct →
    i.wf cfg = true → i.wf cfg' = true → s'.regs = s.regs →
    fetch s = .ok (encode cfg i) → fetch s' = .ok (encode cfg' i) →
    ∃ t t', tick cfg s = .next t ∧ tick cfg' s' = .next t' ∧ t'.regs = t.regs ∧ t'.jf = t.jf

/-- The idioms of the instruction set: unconditional jump, copy, load constant, clear, no operation (30_encoding.md
R63). -/
def Obligations.IdiomsWork : Prop :=
  ∀ (cfg : Config) (s : State) (a : Addr) (r : Reg) (k : Byte), r ≠ .pc →
    (fetchedInstr cfg s = .ok (.ifeq a a k) → ∃ t, tick cfg s = .next t ∧ t.regs.pc = k) ∧
    ((getOperand a s).toNat ≤ 254 → fetchedInstr cfg s = .ok (.addi a 0 (.cell r)) →
      ∃ t, tick cfg s = .next t ∧ t.cell r = getOperand a s) ∧
    (fetchedInstr cfg s = .ok (.and a a (.cell r)) → ∃ t, tick cfg s = .next t ∧ t.cell r = getOperand a s) ∧
    (k.toNat ≤ 254 → fetchedInstr cfg s = .ok (.addi .io k (.cell r)) → ∃ t, tick cfg s = .next t ∧ t.cell r = k) ∧
    (fetchedInstr cfg s = .ok (.andi (.cell r) 0 (.cell r)) → ∃ t, tick cfg s = .next t ∧ t.cell r = 0) ∧
    (fetchedInstr cfg s = .ok (.addi .io 0 .io) → ∃ t, tick cfg s = .next t ∧ OnlyPcAdvances s t)

/-- The byte arrays: a read after a write gives the byte written at its index and the old byte elsewhere, and two canonical
arrays with equal contents are equal data. The representation is the model's own (log 10). -/
def Obligations.MemoryLaws : Prop :=
  (∀ (m : Memory) (a b : Nat) (v : Byte) (size : Nat), Memory.wf size m = true →
    (m.write a v).read b = if b = a then v else m.read b) ∧
  (∀ (m m' : Memory) (size : Nat), Memory.wf size m = true → Memory.wf size m' = true →
    (∀ n, m.read n = m'.read n) → m = m')

/-- A loaded program is the store: its length is `PROG_LEN`, the byte at every index is the byte supplied there, and no
register changes (44_fetch_execute_cycle.md R109; 10_state.md R21; log 1). -/
def Obligations.LoadedProgramIsTheStore : Prop :=
  ∀ (s : State) (bytes : List Byte),
    (s.loadProgram bytes).progLen = bytes.length ∧ (s.loadProgram bytes).regs = s.regs ∧
    ∀ (n : Nat) (h : n < bytes.length), (s.loadProgram bytes).progByte n = bytes[n]

/-- The word that `withFetchWord` places is the one the next step runs, and nothing but the four bytes at the PC and the
length changes (log 3, log 12). -/
def Obligations.PlacedWordIsRunNext : Prop :=
  ∀ (s : State) (nbits w : Nat) (i : Instr), s.wf = true → decodeTableWord nbits w = some i →
    fetchedInstr defaultConfig (s.withFetchWord nbits w) = .ok i ∧
    (s.withFetchWord nbits w).regs = s.regs ∧
    (∀ n, n < s.regs.pc.toNat ∨ s.regs.pc.toNat + 3 < n → (s.withFetchWord nbits w).progByte n = s.progByte n)
end

