-- ==== Sys2Proof/Laws/Decode.lean ====
section
/-! SUPPORT. The decoder of addresses undoes the encoder, and what it answers is well formed. -/

namespace Sys2Proof

/-- Encoding what a byte names gives the byte back. -/
theorem encodeAddr_decodeAddr (cfg : Config) (a : Byte) : encodeAddr cfg (decodeAddr cfg a) = a := by
  unfold decodeAddr
  repeat' split
  all_goals first | rfl | exact Eq.symm ‹_›

/-- A byte that is no address code is unrecognised. -/
theorem decodeAddr_unrecognised {cfg : Config} {a : Byte} (h : a ∉ cfg.addressCodes) :
    decodeAddr cfg a = .unrecognised a := by
  simp only [Config.addressCodes, List.mem_cons, List.not_mem_nil, or_false, not_or] at h
  simp [decodeAddr, h]

/-- What a byte names is well formed. -/
theorem decodeAddr_wf (cfg : Config) (a : Byte) : (decodeAddr cfg a).wf cfg = true := by
  by_cases h : a ∈ cfg.addressCodes
  · simp only [Config.addressCodes, List.mem_cons, List.not_mem_nil, or_false] at h
    unfold decodeAddr
    repeat' split
    all_goals first | rfl | simp_all
  · rw [decodeAddr_unrecognised h]
    simpa [Addr.wf] using h

/-- With pairwise distinct codes, decoding the byte of a well-formed address gives it back. -/
theorem decodeAddr_encodeAddr {cfg : Config} (hd : cfg.Distinct) {a : Addr} (ha : a.wf cfg = true) :
    decodeAddr cfg (encodeAddr cfg a) = a := by
  obtain ⟨-, hd⟩ := hd
  cases a with
  | unrecognised b =>
    have hb : b ∉ cfg.addressCodes := by simpa [Addr.wf] using ha
    exact decodeAddr_unrecognised hb
  | io =>
    simp only [Config.addressCodes, List.nodup_cons, List.mem_cons, List.not_mem_nil, or_false, not_or] at hd
    simp [encodeAddr, decodeAddr, hd, eq_comm]
  | cell r =>
    simp only [Config.addressCodes, List.nodup_cons, List.mem_cons, List.not_mem_nil, or_false, not_or] at hd
    cases r <;> simp [encodeAddr, decodeAddr, hd, eq_comm]

/-- With pairwise distinct codes, each named opcode decodes to its own instruction, and an unassigned one to itself. -/
theorem decode_named {cfg : Config} (hd : cfg.Distinct) (b1 b2 b3 : Byte) :
    decode cfg ⟨cfg.opAdd, b1, b2, b3⟩ = .add (decodeAddr cfg b1) (decodeAddr cfg b2) (decodeAddr cfg b3) ∧
    decode cfg ⟨cfg.opAddi, b1, b2, b3⟩ = .addi (decodeAddr cfg b1) b2 (decodeAddr cfg b3) ∧
    decode cfg ⟨cfg.opAnd, b1, b2, b3⟩ = .and (decodeAddr cfg b1) (decodeAddr cfg b2) (decodeAddr cfg b3) ∧
    decode cfg ⟨cfg.opAndi, b1, b2, b3⟩ = .andi (decodeAddr cfg b1) b2 (decodeAddr cfg b3) ∧
    decode cfg ⟨cfg.opIfeq, b1, b2, b3⟩ = .ifeq (decodeAddr cfg b1) (decodeAddr cfg b2) b3 ∧
    decode cfg ⟨cfg.opIfne, b1, b2, b3⟩ = .ifne b1 b2 b3 ∧
    decode cfg ⟨cfg.opLoad, b1, b2, b3⟩ = .load b1 b2 b3 ∧
    decode cfg ⟨cfg.opSave, b1, b2, b3⟩ = .save b1 b2 b3 := by
  have h := hd.1
  simp only [Config.opcodeCodes, List.nodup_cons, List.mem_cons, List.not_mem_nil, or_false, not_or] at h
  simp [decode, h, eq_comm]

theorem decode_unassigned {cfg : Config} {op : Byte} (h : op ∉ cfg.opcodeCodes) (b1 b2 b3 : Byte) :
    decode cfg ⟨op, b1, b2, b3⟩ = .unassigned op b1 b2 b3 := by
  simp only [Config.opcodeCodes, List.mem_cons, List.not_mem_nil, or_false, not_or] at h
  simp [decode, h]

end Sys2Proof
end

