-- ==== Sys2Proof/Laws/State.lean ====
section
/-! SUPPORT. The fields of State under each update, one lemma per field per update, so that no later proof unfolds a
record update. -/

namespace Sys2Proof.Machine

/-! ## The register file -/

@[simp] theorem RegFile.read_write_same (f : RegFile) (r : Reg) (v : Byte) : (f.write r v).read r = v := by
  cases r <;> rfl

theorem RegFile.read_write_other (f : RegFile) {r r' : Reg} (v : Byte) (h : r' ≠ r) :
    (f.write r v).read r' = f.read r' := by
  cases r <;> cases r' <;> first | rfl | exact absurd rfl h

/-- Two register files with the same seven cells are the same. -/
theorem RegFile.ext_read {f g : RegFile} (h : ∀ r, f.read r = g.read r) : f = g := by
  cases f; cases g
  simp only [RegFile.mk.injEq]
  exact ⟨h .reg0, h .reg1, h .reg2, h .reg3, h .reg4, h .reg5, h .pc⟩

@[simp] theorem RegFile.write_pc (f : RegFile) (v : Byte) : (f.write .pc v).pc = v := rfl

theorem State.cell_pc (s : State) : s.cell .pc = s.regs.pc := rfl

/-! ## setCell -/

@[simp] theorem State.cell_setCell_same (s : State) (r : Reg) (v : Byte) : (s.setCell r v).cell r = v :=
  RegFile.read_write_same s.regs r v

theorem State.cell_setCell_other (s : State) {r r' : Reg} (v : Byte) (h : r' ≠ r) :
    (s.setCell r v).cell r' = s.cell r' :=
  RegFile.read_write_other s.regs v h

theorem State.pc_setCell_other (s : State) {r : Reg} (v : Byte) (h : r ≠ .pc) :
    (s.setCell r v).regs.pc = s.regs.pc :=
  RegFile.read_write_other s.regs v (Ne.symm h)

@[simp] theorem State.setCell_regs (s : State) (r : Reg) (v : Byte) : (s.setCell r v).regs = s.regs.write r v := rfl
@[simp] theorem State.setCell_jf (s : State) (r : Reg) (v : Byte) : (s.setCell r v).jf = s.jf := rfl
@[simp] theorem State.setCell_ram (s : State) (r : Reg) (v : Byte) : (s.setCell r v).ram = s.ram := rfl
@[simp] theorem State.setCell_stack (s : State) (r : Reg) (v : Byte) : (s.setCell r v).stack = s.stack := rfl
@[simp] theorem State.setCell_prog (s : State) (r : Reg) (v : Byte) : (s.setCell r v).prog = s.prog := rfl
@[simp] theorem State.setCell_progLen (s : State) (r : Reg) (v : Byte) : (s.setCell r v).progLen = s.progLen := rfl

/-- Storing in a cell the byte it holds changes nothing. -/
theorem State.setCell_self (s : State) (r : Reg) : s.setCell r (s.cell r) = s := by
  cases r <;> rfl

/-! ## raiseJump and lowerJump -/

@[simp] theorem State.raiseJump_regs (s : State) : s.raiseJump.regs = s.regs := rfl
@[simp] theorem State.raiseJump_jf (s : State) : s.raiseJump.jf = true := rfl
@[simp] theorem State.raiseJump_ram (s : State) : s.raiseJump.ram = s.ram := rfl
@[simp] theorem State.raiseJump_stack (s : State) : s.raiseJump.stack = s.stack := rfl
@[simp] theorem State.raiseJump_prog (s : State) : s.raiseJump.prog = s.prog := rfl
@[simp] theorem State.raiseJump_progLen (s : State) : s.raiseJump.progLen = s.progLen := rfl
@[simp] theorem State.raiseJump_cell (s : State) (r : Reg) : s.raiseJump.cell r = s.cell r := rfl

@[simp] theorem State.lowerJump_regs (s : State) : s.lowerJump.regs = s.regs := rfl
@[simp] theorem State.lowerJump_jf (s : State) : s.lowerJump.jf = false := rfl
@[simp] theorem State.lowerJump_ram (s : State) : s.lowerJump.ram = s.ram := rfl
@[simp] theorem State.lowerJump_stack (s : State) : s.lowerJump.stack = s.stack := rfl
@[simp] theorem State.lowerJump_prog (s : State) : s.lowerJump.prog = s.prog := rfl
@[simp] theorem State.lowerJump_progLen (s : State) : s.lowerJump.progLen = s.progLen := rfl
@[simp] theorem State.lowerJump_cell (s : State) (r : Reg) : s.lowerJump.cell r = s.cell r := rfl

/-- Lowering a flag that is down changes nothing. -/
theorem State.lowerJump_of_down {s : State} (h : s.jf = false) : s.lowerJump = s := by
  cases s; cases h; rfl

/-! ## loadProgram -/

@[simp] theorem State.loadProgram_regs (s : State) (bs : List Byte) : (s.loadProgram bs).regs = s.regs := rfl
@[simp] theorem State.loadProgram_jf (s : State) (bs : List Byte) : (s.loadProgram bs).jf = s.jf := rfl
@[simp] theorem State.loadProgram_ram (s : State) (bs : List Byte) : (s.loadProgram bs).ram = s.ram := rfl
@[simp] theorem State.loadProgram_stack (s : State) (bs : List Byte) : (s.loadProgram bs).stack = s.stack := rfl
@[simp] theorem State.loadProgram_prog (s : State) (bs : List Byte) :
    (s.loadProgram bs).prog = Memory.ofBytes 0 bs := rfl
@[simp] theorem State.loadProgram_progLen (s : State) (bs : List Byte) :
    (s.loadProgram bs).progLen = bs.length := rfl

/-! ## resetEvent -/

@[simp] theorem State.resetEvent_regs (s : State) : s.resetEvent.regs = ⟨0, 0, 0, 0, 0, 0, 0⟩ := rfl
@[simp] theorem State.resetEvent_jf (s : State) : s.resetEvent.jf = false := rfl
@[simp] theorem State.resetEvent_ram (s : State) : s.resetEvent.ram = [] := rfl
@[simp] theorem State.resetEvent_stack (s : State) : s.resetEvent.stack = [] := rfl
@[simp] theorem State.resetEvent_prog (s : State) : s.resetEvent.prog = s.prog := rfl
@[simp] theorem State.resetEvent_progLen (s : State) : s.resetEvent.progLen = s.progLen := rfl

/-! ## placeAtPc -/

@[simp] theorem placeAtPc_regs (w : InstrBytes) (s : State) : (placeAtPc w s).regs = s.regs := rfl
@[simp] theorem placeAtPc_jf (w : InstrBytes) (s : State) : (placeAtPc w s).jf = s.jf := rfl
@[simp] theorem placeAtPc_ram (w : InstrBytes) (s : State) : (placeAtPc w s).ram = s.ram := rfl
@[simp] theorem placeAtPc_stack (w : InstrBytes) (s : State) : (placeAtPc w s).stack = s.stack := rfl
@[simp] theorem placeAtPc_progLen (w : InstrBytes) (s : State) :
    (placeAtPc w s).progLen = max s.progLen (s.regs.pc.toNat + 4) := rfl

end Sys2Proof.Machine
end

