-- ==== Sys2Proof/Laws/Exec.lean ====
section
/-! SUPPORT. What the execute step and its shared operations can do, said once. -/

namespace Sys2Proof.Machine

/-! ## Operands -/

@[simp] theorem getOperand_cell (r : Reg) (s : State) : getOperand (.cell r) s = s.cell r := rfl
@[simp] theorem getOperand_io (s : State) : getOperand .io s = 0 := rfl
@[simp] theorem getOperand_unrecognised (b : Byte) (s : State) : getOperand (.unrecognised b) s = 0 := rfl
@[simp] theorem setOperand_cell (r : Reg) (v : Byte) (s : State) : setOperand (.cell r) v s = s.setCell r v := rfl
@[simp] theorem setOperand_io (v : Byte) (s : State) : setOperand .io v s = s := rfl
@[simp] theorem setOperand_unrecognised (b v : Byte) (s : State) : setOperand (.unrecognised b) v s = s := rfl
@[simp] theorem immOperand_eq (imm : Byte) : immOperand imm = imm := rfl

/-- The operand read depends on the register file alone. -/
theorem getOperand_congr (a : Addr) {s s' : State} (h : s'.regs = s.regs) : getOperand a s' = getOperand a s := by
  cases a <;> simp [State.cell, h]

@[simp] theorem getOperand_lowerJump (a : Addr) (s : State) : getOperand a s.lowerJump = getOperand a s :=
  getOperand_congr a rfl

@[simp] theorem setOperand_jf (a : Addr) (v : Byte) (s : State) : (setOperand a v s).jf = s.jf := by
  cases a <;> rfl
@[simp] theorem setOperand_ram (a : Addr) (v : Byte) (s : State) : (setOperand a v s).ram = s.ram := by
  cases a <;> rfl
@[simp] theorem setOperand_stack (a : Addr) (v : Byte) (s : State) : (setOperand a v s).stack = s.stack := by
  cases a <;> rfl
@[simp] theorem setOperand_prog (a : Addr) (v : Byte) (s : State) : (setOperand a v s).prog = s.prog := by
  cases a <;> rfl
@[simp] theorem setOperand_progLen (a : Addr) (v : Byte) (s : State) : (setOperand a v s).progLen = s.progLen := by
  cases a <;> rfl

/-! ## Frames -/

theorem SameStores.refl (s : State) : SameStores s s :=
  ⟨rfl, fun _ => rfl, fun _ => rfl, fun _ => rfl⟩

/-- Equal arrays read alike. -/
theorem SameStores.of_eq {s t : State} (h1 : t.progLen = s.progLen) (h2 : t.prog = s.prog) (h3 : t.ram = s.ram)
    (h4 : t.stack = s.stack) : SameStores s t :=
  ⟨h1, fun _ => by rw [State.progByte, h2, State.progByte], fun _ => by rw [h3], fun _ => by rw [h4]⟩

/-- A write to one cell changes that cell only. -/
theorem onlyCellChanges_setCell (s : State) (r : Reg) (v : Byte) : OnlyCellChanges r s (s.setCell r v) :=
  ⟨fun _ h => s.cell_setCell_other v h, rfl, .of_eq rfl rfl rfl rfl⟩

/-! ## The result of the ALU -/

theorem toNat_addMod (a b : Byte) : (addMod a b).toNat = (a.toNat + b.toNat) % 255 := by
  have : (a.toNat + b.toNat) % 255 < 255 := Nat.mod_lt _ (by omega)
  simp only [addMod, Config.modulus, BitVec.toNat_ofNat]
  omega

theorem toNat_nextPc (pc : Byte) : (nextPc pc).toNat = (pc.toNat + 4) % 255 := by
  have : (pc.toNat + 4) % 255 < 255 := Nat.mod_lt _ (by omega)
  simp only [nextPc, Config.modulus, Config.pcStep, BitVec.toNat_ofNat]
  omega

/-- The successor of a PC is another PC. -/
theorem nextPc_ne (pc : Byte) : nextPc pc ≠ pc := by
  intro h
  have h1 := toNat_nextPc pc
  have h2 := pc.isLt
  rw [h] at h1
  omega

/-! ## What an instruction can do -/

/-- What the execute step of an instruction can do: an arithmetic or logic instruction writes one result byte to its
destination; a taken IFEQ writes its target to the PC and raises the flag; everything else does nothing. -/
inductive ExecCase : Instr → State → State → Prop where
  | add (s1 s2 d : Addr) (s : State) :
      ExecCase (.add s1 s2 d) s (setOperand d (addMod (getOperand s1 s) (getOperand s2 s)) s)
  | addi (src : Addr) (imm : Byte) (d : Addr) (s : State) :
      ExecCase (.addi src imm d) s (setOperand d (addMod (getOperand src s) imm) s)
  | and (s1 s2 d : Addr) (s : State) :
      ExecCase (.and s1 s2 d) s (setOperand d (getOperand s1 s &&& getOperand s2 s) s)
  | andi (src : Addr) (imm : Byte) (d : Addr) (s : State) :
      ExecCase (.andi src imm d) s (setOperand d (getOperand src s &&& imm) s)
  | taken {a b : Addr} (target : Byte) {s : State} (h : getOperand a s = getOperand b s) :
      ExecCase (.ifeq a b target) s (s.setCell .pc target).raiseJump
  | notTaken {a b : Addr} (target : Byte) {s : State} (h : getOperand a s ≠ getOperand b s) :
      ExecCase (.ifeq a b target) s s
  | ifne (b1 b2 b3 : Byte) (s : State) : ExecCase (.ifne b1 b2 b3) s s
  | load (b1 b2 b3 : Byte) (s : State) : ExecCase (.load b1 b2 b3) s s
  | save (b1 b2 b3 : Byte) (s : State) : ExecCase (.save b1 b2 b3) s s
  | unassigned (op b1 b2 b3 : Byte) (s : State) : ExecCase (.unassigned op b1 b2 b3) s s

/-- The execute step of a taken IFEQ. -/
theorem exec_ifeq_taken {a b : Addr} (target : Byte) {s : State} (h : getOperand a s = getOperand b s) :
    exec (.ifeq a b target) s = .next (s.setCell .pc target).raiseJump := by
  simp [exec, execIfeq, jumpWhen, h]

/-- The execute step of an IFEQ that is not taken. -/
theorem exec_ifeq_notTaken {a b : Addr} (target : Byte) {s : State} (h : getOperand a s ≠ getOperand b s) :
    exec (.ifeq a b target) s = .next s := by
  simp [exec, execIfeq, jumpWhen, h]

/-- The execute step answers a next state that is one of the cases. -/
theorem exec_case (i : Instr) (s : State) : ∃ t, exec i s = .next t ∧ ExecCase i s t := by
  cases i with
  | add s1 s2 d => exact ⟨_, rfl, .add s1 s2 d s⟩
  | addi src imm d => exact ⟨_, rfl, .addi src imm d s⟩
  | and s1 s2 d => exact ⟨_, rfl, .and s1 s2 d s⟩
  | andi src imm d => exact ⟨_, rfl, .andi src imm d s⟩
  | ifeq a b target =>
    by_cases h : getOperand a s = getOperand b s
    · exact ⟨_, exec_ifeq_taken target h, .taken target h⟩
    · exact ⟨_, exec_ifeq_notTaken target h, .notTaken target h⟩
  | ifne b1 b2 b3 => exact ⟨_, rfl, .ifne b1 b2 b3 s⟩
  | load b1 b2 b3 => exact ⟨_, rfl, .load b1 b2 b3 s⟩
  | save b1 b2 b3 => exact ⟨_, rfl, .save b1 b2 b3 s⟩
  | unassigned op b1 b2 b3 => exact ⟨_, rfl, .unassigned op b1 b2 b3 s⟩

/-- If the execute step answers `t`, then `t` is one of the cases. -/
theorem exec_next {i : Instr} {s t : State} (h : exec i s = .next t) : ExecCase i s t := by
  obtain ⟨u, hu, hc⟩ := exec_case i s
  rw [hu] at h
  cases h
  exact hc

end Sys2Proof.Machine
end

