-- ==== Sys2Proof/Laws/Memory.lean ====
section
/-! SUPPORT. The byte arrays: every operation keeps the canonical form, and what is read after it. -/

namespace Sys2Proof.Machine

theorem Memory.wfFrom_cons {size lo k : Nat} {v : Byte} {rest : Memory} :
    Memory.wfFrom size lo ((k, v) :: rest) = true ↔
      lo ≤ k ∧ k < size ∧ v ≠ Memory.unlisted ∧ Memory.wfFrom size (k + 1) rest = true := by
  simp [Memory.wfFrom, and_assoc]

/-- The canonical form from an index on is one from any earlier index on. -/
theorem Memory.wfFrom_mono {size lo lo' : Nat} {m : Memory} (h : Memory.wfFrom size lo m = true) (hl : lo' ≤ lo) :
    Memory.wfFrom size lo' m = true := by
  match m with
  | [] => rfl
  | (k, v) :: rest =>
    obtain ⟨h1, h2, h3, h4⟩ := Memory.wfFrom_cons.mp h
    exact Memory.wfFrom_cons.mpr ⟨by omega, h2, h3, h4⟩

/-- A canonical array of some size is canonical in any larger size. -/
theorem Memory.wfFrom_size {size size' : Nat} (hs : size ≤ size') :
    ∀ {lo : Nat} {m : Memory}, Memory.wfFrom size lo m = true → Memory.wfFrom size' lo m = true
  | _, [], _ => rfl
  | _, (_, _) :: _, h => by
    obtain ⟨h1, h2, h3, h4⟩ := Memory.wfFrom_cons.mp h
    exact Memory.wfFrom_cons.mpr ⟨h1, by omega, h3, Memory.wfFrom_size hs h4⟩

/-- An index below the first listed one reads as the unlisted byte. -/
theorem Memory.read_below {size a : Nat} :
    ∀ {lo : Nat} {m : Memory}, Memory.wfFrom size lo m = true → a < lo → m.read a = Memory.unlisted
  | _, [], _, _ => rfl
  | _, (k, v) :: rest, h, ha => by
    obtain ⟨h1, -, -, h4⟩ := Memory.wfFrom_cons.mp h
    have hk : a ≠ k := by omega
    simp only [Memory.read, hk, if_false]
    exact Memory.read_below h4 (by omega)

/-- A write keeps the canonical form. -/
theorem Memory.wfFrom_write {size a : Nat} {v : Byte} (ha : a < size) :
    ∀ {lo : Nat} {m : Memory}, Memory.wfFrom size lo m = true → lo ≤ a → Memory.wfFrom size lo (m.write a v) = true
  | lo, [], _, hl => by
    unfold Memory.write
    split
    · rfl
    · exact Memory.wfFrom_cons.mpr ⟨hl, ha, ‹_›, rfl⟩
  | lo, (k, w) :: rest, h, hl => by
    obtain ⟨h1, h2, h3, h4⟩ := Memory.wfFrom_cons.mp h
    unfold Memory.write
    split
    · split
      · exact h
      · exact Memory.wfFrom_cons.mpr ⟨hl, ha, ‹_›, Memory.wfFrom_cons.mpr ⟨by omega, h2, h3, h4⟩⟩
    · split
      · subst a
        split
        · exact Memory.wfFrom_mono h4 (by omega)
        · exact Memory.wfFrom_cons.mpr ⟨h1, h2, ‹_›, h4⟩
      · exact Memory.wfFrom_cons.mpr ⟨h1, h2, h3, Memory.wfFrom_write ha h4 (by omega)⟩

/-- A write inside an array keeps its canonical form. -/
theorem Memory.wf_write {size a : Nat} {v : Byte} {m : Memory} (h : Memory.wf size m = true) (ha : a < size) :
    Memory.wf size (m.write a v) = true :=
  Memory.wfFrom_write ha h (Nat.zero_le a)

/-- An array built from a list of bytes is in canonical form. -/
theorem Memory.wfFrom_ofBytes : ∀ (bs : List Byte) (base size : Nat), base + bs.length ≤ size →
    Memory.wfFrom size base (Memory.ofBytes base bs) = true
  | [], _, _, _ => rfl
  | b :: rest, base, size, h => by
    have hr : Memory.wfFrom size (base + 1) (Memory.ofBytes (base + 1) rest) = true :=
      Memory.wfFrom_ofBytes rest (base + 1) size (by simp at h; omega)
    unfold Memory.ofBytes
    split
    · exact Memory.wfFrom_mono hr (by omega)
    · exact Memory.wfFrom_cons.mpr ⟨le_refl _, by simp at h; omega, ‹_›, hr⟩

theorem Memory.wf_ofBytes (bs : List Byte) : Memory.wf bs.length (Memory.ofBytes 0 bs) = true :=
  Memory.wfFrom_ofBytes bs 0 bs.length (by omega)

/-- The byte of a written canonical array, from an index on. -/
theorem Memory.read_write_from {size a : Nat} (b : Nat) {v : Byte} :
    ∀ {lo : Nat} {m : Memory}, Memory.wfFrom size lo m = true →
      (m.write a v).read b = if b = a then v else m.read b
  | _, [], _ => by
    unfold Memory.write
    split
    · split
      · rw [‹v = _›]; rfl
      · rfl
    · rfl
  | _, (k, w) :: rest, h => by
    obtain ⟨-, -, -, h4⟩ := Memory.wfFrom_cons.mp h
    unfold Memory.write
    by_cases h1 : a < k
    · have hlow : Memory.read ((k, w) :: rest) a = Memory.unlisted :=
        Memory.read_below (lo := k) (Memory.wfFrom_cons.mpr ⟨le_refl k, (Memory.wfFrom_cons.mp h).2⟩) h1
      by_cases hv : v = Memory.unlisted
      · simp only [h1, hv, if_true]
        split
        · rw [‹b = a›, hlow]
        · rfl
      · simp only [h1, hv, if_true, if_false]; rfl
    · by_cases h2 : a = k
      · subst h2
        by_cases hv : v = Memory.unlisted
        · simp only [lt_irrefl, hv, if_true, if_false, Memory.read]
          split
          · rw [‹b = a›]; exact Memory.read_below h4 (by omega)
          · rfl
        · simp only [lt_irrefl, hv, if_true, if_false, Memory.read]
          split <;> rfl
      · simp only [h1, h2, if_false, Memory.read, Memory.read_write_from b h4]
        by_cases hk : b = k
        · have : b ≠ a := fun e => h2 (e.symm.trans hk)
          simp [hk, Ne.symm h2]
        · simp [hk]

/-- The bytes of an array built from a list. -/
theorem Memory.read_ofBytes : ∀ (bs : List Byte) (base n : Nat) (h : n < bs.length),
    (Memory.ofBytes base bs).read (base + n) = bs[n]
  | b :: rest, base, 0, _ => by
    unfold Memory.ofBytes
    split
    · rw [List.getElem_cons_zero, ‹b = _›]
      exact Memory.read_below (size := base + 1 + rest.length)
        (Memory.wfFrom_ofBytes rest (base + 1) _ (le_refl _)) (by omega)
    · simp [Memory.read]
  | b :: rest, base, n + 1, h => by
    have ih := Memory.read_ofBytes rest (base + 1) n (by simpa using h)
    have e : base + (n + 1) = base + 1 + n := by omega
    unfold Memory.ofBytes
    split
    · rw [e, ih]; rfl
    · have hk : base + 1 + n ≠ base := by omega
      simp only [Memory.read, e, hk, if_false, ih]; rfl

end Sys2Proof.Machine
end

