-- ==== Sys2Proof/Laws/PerInstr.lean ====
section
/-! SUPPORT. The family RoundTrip: of each instruction, what its encoding decodes to, one lemma per constructor. -/

/-- With pairwise distinct codes, decoding the four bytes of a well-formed instruction gives it back. For the opcodes
without a handler this rests on log 11. -/
def Sys2Proof.Laws.RoundTrip.Statement (i : Sys2Proof.Instr) : Prop :=
  ∀ cfg : Sys2Proof.Config, cfg.Distinct → i.wf cfg = true → Sys2Proof.decode cfg (Sys2Proof.encode cfg i) = i

open Sys2Proof

theorem Sys2Proof.Laws.RoundTrip.add (s1 s2 d : Addr) : Sys2Proof.Laws.RoundTrip.Statement (.add s1 s2 d) := by
  intro cfg hd hw
  simp only [Instr.wf, Bool.and_eq_true] at hw
  obtain ⟨⟨h1, h2⟩, h3⟩ := hw
  simp only [encode, (decode_named hd _ _ _).1, decodeAddr_encodeAddr hd h1, decodeAddr_encodeAddr hd h2,
    decodeAddr_encodeAddr hd h3]

theorem Sys2Proof.Laws.RoundTrip.addi (s : Addr) (imm : Byte) (d : Addr) :
    Sys2Proof.Laws.RoundTrip.Statement (.addi s imm d) := by
  intro cfg hd hw
  simp only [Instr.wf, Bool.and_eq_true] at hw
  simp only [encode, (decode_named hd _ _ _).2.1, decodeAddr_encodeAddr hd hw.1, decodeAddr_encodeAddr hd hw.2]

theorem Sys2Proof.Laws.RoundTrip.and (s1 s2 d : Addr) : Sys2Proof.Laws.RoundTrip.Statement (.and s1 s2 d) := by
  intro cfg hd hw
  simp only [Instr.wf, Bool.and_eq_true] at hw
  obtain ⟨⟨h1, h2⟩, h3⟩ := hw
  simp only [encode, (decode_named hd _ _ _).2.2.1, decodeAddr_encodeAddr hd h1, decodeAddr_encodeAddr hd h2,
    decodeAddr_encodeAddr hd h3]

theorem Sys2Proof.Laws.RoundTrip.andi (s : Addr) (imm : Byte) (d : Addr) :
    Sys2Proof.Laws.RoundTrip.Statement (.andi s imm d) := by
  intro cfg hd hw
  simp only [Instr.wf, Bool.and_eq_true] at hw
  simp only [encode, (decode_named hd _ _ _).2.2.2.1, decodeAddr_encodeAddr hd hw.1, decodeAddr_encodeAddr hd hw.2]

theorem Sys2Proof.Laws.RoundTrip.ifeq (a b : Addr) (target : Byte) :
    Sys2Proof.Laws.RoundTrip.Statement (.ifeq a b target) := by
  intro cfg hd hw
  simp only [Instr.wf, Bool.and_eq_true] at hw
  simp only [encode, (decode_named hd _ _ _).2.2.2.2.1, decodeAddr_encodeAddr hd hw.1, decodeAddr_encodeAddr hd hw.2]

theorem Sys2Proof.Laws.RoundTrip.ifne (b1 b2 b3 : Byte) : Sys2Proof.Laws.RoundTrip.Statement (.ifne b1 b2 b3) :=
  fun _ hd _ => (decode_named hd b1 b2 b3).2.2.2.2.2.1

theorem Sys2Proof.Laws.RoundTrip.load (b1 b2 b3 : Byte) : Sys2Proof.Laws.RoundTrip.Statement (.load b1 b2 b3) :=
  fun _ hd _ => (decode_named hd b1 b2 b3).2.2.2.2.2.2.1

theorem Sys2Proof.Laws.RoundTrip.save (b1 b2 b3 : Byte) : Sys2Proof.Laws.RoundTrip.Statement (.save b1 b2 b3) :=
  fun _ hd _ => (decode_named hd b1 b2 b3).2.2.2.2.2.2.2

theorem Sys2Proof.Laws.RoundTrip.unassigned (op b1 b2 b3 : Byte) :
    Sys2Proof.Laws.RoundTrip.Statement (.unassigned op b1 b2 b3) := by
  intro cfg _ hw
  exact decode_unassigned (by simpa [Instr.wf] using hw) b1 b2 b3
end

