-- ==== Sys2Proof/Laws/Tick.lean ====
section
/-! SUPPORT. What the fetch, the advance and the whole tick can do, said once. -/

namespace Sys2Proof.Machine

/-! ## Fetch -/

theorem progRead_inside {s : State} {i : Nat} (h : i < s.progLen) : progRead s i = .ok (s.progByte i) := by
  simp [progRead, h]

theorem progRead_outside {s : State} {i : Nat} (h : s.progLen ≤ i) :
    progRead s i = .error (.fetchOverrun i s.regs.pc) := by
  simp [progRead, Nat.not_lt.mpr h]

/-- A fetch inside the store gives the four bytes at the PC. -/
theorem fetch_inside {s : State} (h : s.FetchInside) : fetch s = .ok (s.bytesAt s.regs.pc.toNat) := by
  unfold State.FetchInside at h
  simp only [fetch, progRead_inside (show s.regs.pc.toNat < s.progLen by omega),
    progRead_inside (show s.regs.pc.toNat + 1 < s.progLen by omega),
    progRead_inside (show s.regs.pc.toNat + 2 < s.progLen by omega),
    progRead_inside (show s.regs.pc.toNat + 3 < s.progLen by omega)]
  rfl

/-- A fetch that leaves the store faults with the first index outside it. -/
theorem fetch_outside {s : State} (h : ¬ s.FetchInside) :
    fetch s = .error (.fetchOverrun (max s.regs.pc.toNat s.progLen) s.regs.pc) := by
  unfold State.FetchInside at h
  unfold fetch
  by_cases h0 : s.progLen ≤ s.regs.pc.toNat
  · rw [progRead_outside h0, Nat.max_eq_left h0]; rfl
  by_cases h1 : s.progLen ≤ s.regs.pc.toNat + 1
  · rw [progRead_inside (by omega), progRead_outside h1, show max s.regs.pc.toNat s.progLen = s.regs.pc.toNat + 1 by omega]
    rfl
  by_cases h2 : s.progLen ≤ s.regs.pc.toNat + 2
  · rw [progRead_inside (by omega), progRead_inside (by omega), progRead_outside h2,
      show max s.regs.pc.toNat s.progLen = s.regs.pc.toNat + 2 by omega]
    rfl
  rw [progRead_inside (by omega), progRead_inside (by omega), progRead_inside (by omega), progRead_outside (by omega),
    show max s.regs.pc.toNat s.progLen = s.regs.pc.toNat + 3 by omega]
  rfl

/-- The instruction a tick runs, when its fetch stays inside. -/
theorem fetchedInstr_inside (cfg : Config) {s : State} (h : s.FetchInside) :
    fetchedInstr cfg s = .ok (decode cfg (s.bytesAt s.regs.pc.toNat)) := by
  rw [fetchedInstr, fetch_inside h]; rfl

theorem fetchedInstr_outside (cfg : Config) {s : State} (h : ¬ s.FetchInside) :
    fetchedInstr cfg s = .error (.fetchOverrun (max s.regs.pc.toNat s.progLen) s.regs.pc) := by
  rw [fetchedInstr, fetch_outside h]; rfl

/-- An instruction was fetched only from inside the store, and it is the one the four bytes decode to. -/
theorem fetchedInstr_ok {cfg : Config} {s : State} {i : Instr} (h : fetchedInstr cfg s = .ok i) :
    s.FetchInside ∧ decode cfg (s.bytesAt s.regs.pc.toNat) = i := by
  by_cases hi : s.FetchInside
  · rw [fetchedInstr_inside cfg hi] at h
    exact ⟨hi, by cases h; rfl⟩
  · rw [fetchedInstr_outside cfg hi] at h
    cases h

/-! ## Advance -/

theorem advance_raised {s : State} (h : s.jf = true) : advance s = s.lowerJump := by
  simp [advance, h]

theorem advance_down {s : State} (h : s.jf = false) : advance s = s.setCell .pc (nextPc s.regs.pc) := by
  simp [advance, h]

@[simp] theorem advance_jf (s : State) : (advance s).jf = false := by
  cases h : s.jf
  · rw [advance_down h]; exact h
  · rw [advance_raised h]; rfl

@[simp] theorem advance_ram (s : State) : (advance s).ram = s.ram := by unfold advance; split <;> rfl
@[simp] theorem advance_stack (s : State) : (advance s).stack = s.stack := by unfold advance; split <;> rfl
@[simp] theorem advance_prog (s : State) : (advance s).prog = s.prog := by unfold advance; split <;> rfl
@[simp] theorem advance_progLen (s : State) : (advance s).progLen = s.progLen := by unfold advance; split <;> rfl

/-- The advance changes no general register. -/
theorem advance_cell (s : State) {r : Reg} (h : r ≠ .pc) : (advance s).cell r = s.cell r := by
  unfold advance
  split
  · rfl
  · exact s.cell_setCell_other _ h

/-! ## The tick -/

/-- Execute and advance of an instruction whose execute step answers `u`. -/
theorem executeAndAdvance_of_exec {i : Instr} {s u : State} (h : exec i s.lowerJump = .next u) :
    executeAndAdvance i s = .next (advance u) := by
  simp [executeAndAdvance, h]

/-- The tick of a fetched instruction. -/
theorem tick_of_fetched {cfg : Config} {s : State} {i : Instr} (h : fetchedInstr cfg s = .ok i) :
    tick cfg s = executeAndAdvance i s := by
  simp [tick, h]

/-- What a tick can do: it runs the instruction it fetched and advances, or its fetch overran. -/
theorem tick_cases (cfg : Config) (s : State) :
    (∃ i u, fetchedInstr cfg s = .ok i ∧ exec i s.lowerJump = .next u ∧ ExecCase i s.lowerJump u ∧
      tick cfg s = .next (advance u)) ∨
    (¬ s.FetchInside ∧ tick cfg s = .fault (.fetchOverrun (max s.regs.pc.toNat s.progLen) s.regs.pc)) := by
  by_cases h : s.FetchInside
  · obtain ⟨u, hu, hc⟩ := exec_case (decode cfg (s.bytesAt s.regs.pc.toNat)) s.lowerJump
    have hf := fetchedInstr_inside cfg h
    exact .inl ⟨_, u, hf, hu, hc, by rw [tick_of_fetched hf, executeAndAdvance_of_exec hu]⟩
  · exact .inr ⟨h, by simp [tick, fetchedInstr_outside cfg h]⟩

/-- If a tick answers `t`, it fetched an instruction, executed it, and `t` is the advance of the result. -/
theorem tick_next {cfg : Config} {s t : State} (h : tick cfg s = .next t) :
    ∃ i u, fetchedInstr cfg s = .ok i ∧ exec i s.lowerJump = .next u ∧ ExecCase i s.lowerJump u ∧ t = advance u := by
  obtain ⟨i, u, hf, hu, hc, ht⟩ | ⟨-, ht⟩ := tick_cases cfg s
  · rw [ht] at h
    cases h
    exact ⟨i, u, hf, hu, hc, rfl⟩
  · rw [ht] at h
    cases h

end Sys2Proof.Machine
end

