-- ==== Sys2Proof/Tests/Slice0.lean ====
section
/-! SUPPORT. The model's own tests. Expected results are the vectors of spec/95_test_vectors.md (their ids stand in the
comments), or words written out from 30_encoding.md R54 and R56. The witnesses at the end show, for each statement with
hypotheses, a concrete state and operands that meet them. -/

namespace Sys2Proof.Tests

open Sys2Proof Sys2Proof.Machine

/-! ## Helpers -/

/-- A state with the given registers, and the given four bytes at its PC, the last ones of the store. -/
def stateWith (regs : RegFile) (w : InstrBytes) : State :=
  placeAtPc w { State.reset with regs := regs }

/-- The registers after one step, if it answers a next state. -/
def regsAfter (s : State) : Option RegFile :=
  match step s with
  | .next t => some t.regs
  | .fault _ => none
  | .refused _ => none

/-- The fault of one step, if it faults. -/
def faultOf (s : State) : Option Fault :=
  match step s with
  | .next _ => none
  | .fault f => some f
  | .refused _ => none

/-! ## WellFormed refuses each ill-formed term -/

theorem test_wf_refuses_address_code_called_unrecognised :
    [Addr.unrecognised 0, .unrecognised 5, .unrecognised 6, .unrecognised 7].map (Addr.wf defaultConfig) =
      [false, false, false, false] := by decide

theorem test_wf_accepts_addresses :
    [Addr.cell .reg0, .cell .pc, .io, .unrecognised 8, .unrecognised 255].map (Addr.wf defaultConfig) =
      [true, true, true, true, true] := by decide

theorem test_wf_refuses_add :
    [Instr.add (.unrecognised 0) .io .io, .add .io (.unrecognised 0) .io, .add .io .io (.unrecognised 0)].map
      (Instr.wf defaultConfig) = [false, false, false] := by decide

theorem test_wf_refuses_addi :
    [Instr.addi (.unrecognised 1) 0 .io, .addi .io 0 (.unrecognised 1)].map (Instr.wf defaultConfig) =
      [false, false] := by decide

theorem test_wf_refuses_and :
    [Instr.and (.unrecognised 2) .io .io, .and .io (.unrecognised 2) .io, .and .io .io (.unrecognised 2)].map
      (Instr.wf defaultConfig) = [false, false, false] := by decide

theorem test_wf_refuses_andi :
    [Instr.andi (.unrecognised 3) 0 .io, .andi .io 0 (.unrecognised 3)].map (Instr.wf defaultConfig) =
      [false, false] := by decide

theorem test_wf_refuses_ifeq :
    [Instr.ifeq (.unrecognised 7) .io 0, .ifeq .io (.unrecognised 7) 0].map (Instr.wf defaultConfig) =
      [false, false] := by decide

theorem test_wf_refuses_named_opcode_called_unassigned :
    [Instr.unassigned 0x00 0 0 0, .unassigned 0x41 0 0 0, .unassigned 0x81 0 0 0, .unassigned 0x04 0 0 0].map
      (Instr.wf defaultConfig) = [false, false, false, true] := by decide

/-! ## Decoding: words written out from the tables, one per constructor -/

-- A9: ADD PC, IO, REG1 = 00 06 07 01.
theorem test_decode_add :
    decodeTableWord 32 0b00000000000001100000011100000001 = some (.add (.cell .pc) .io (.cell .reg1)) := by decide

-- I9: ADDI 0x33, 6, REG5 = 01 33 06 05: the address byte 0x33 is unrecognised, the immediate 6 is a number.
theorem test_decode_addi :
    decodeTableWord 32 0b00000001001100110000011000000101 = some (.addi (.unrecognised 0x33) 6 (.cell .reg5)) := by
  decide

-- N1: AND REG0, REG1, REG2 = 02 00 01 02.
theorem test_decode_and :
    decodeTableWord 32 0b00000010000000000000000100000010 = some (.and (.cell .reg0) (.cell .reg1) (.cell .reg2)) := by
  decide

-- ANDI REG3, 4, REG4 = 03 03 04 04: the immediate 4 is a number, the destination 4 is REG4.
theorem test_decode_andi :
    decodeTableWord 32 0b00000011000000110000010000000100 = some (.andi (.cell .reg3) 4 (.cell .reg4)) := by decide

-- J9: IFEQ REG1, REG1, 6 = 40 01 01 06: the target 6 is an index, not the PC.
theorem test_decode_ifeq :
    decodeTableWord 32 0b01000000000000010000000100000110 = some (.ifeq (.cell .reg1) (.cell .reg1) 6) := by decide

-- U1: IFNE = 41 00 01 00.
theorem test_decode_ifne : decodeTableWord 32 0b01000001000000000000000100000000 = some (.ifne 0 1 0) := by decide

-- U3: LOAD = 80 01 02 03.
theorem test_decode_load : decodeTableWord 32 0b10000000000000010000001000000011 = some (.load 1 2 3) := by decide

-- U4: SAVE = 81 00 00 00.
theorem test_decode_save : decodeTableWord 32 0b10000001000000000000000000000000 = some (.save 0 0 0) := by decide

-- U6, U7: 04 00 05 00 is no OR, and 42 00 00 00 is a reserved comparison slot.
theorem test_decode_unassigned :
    decodeTableWord 32 0b00000100000000000000010100000000 = some (.unassigned 4 0 5 0) ∧
    decodeTableWord 32 0b01000010000000000000000000000000 = some (.unassigned 0x42 0 0 0) := by decide

-- A word of fewer bits has zeros above it: the opcode byte is bits 31 to 24.
theorem test_decode_short_word :
    decodeTableWord 8 0x02 = some (.add (.cell .reg0) (.cell .reg0) (.cell .reg2)) := by decide

theorem test_decode_truncated :
    (match decodeBytes defaultConfig [0x01, 0x00, 0x01] with
      | .ok _ => none
      | .error e => some e) = some (.truncated 3) := by decide

/-! ## One step each -/

-- A6 and A3: 200 + 100 = 300 mod 255 = 45, and 254 + 1 gives 0.
theorem test_step_add :
    regsAfter (stateWith ⟨200, 100, 0, 0, 0, 0, 0⟩ ⟨0x00, 0, 1, 2⟩) = some ⟨200, 100, 45, 0, 0, 0, 4⟩ ∧
    regsAfter (stateWith ⟨254, 1, 9, 0, 0, 0, 0⟩ ⟨0x00, 0, 1, 2⟩) = some ⟨254, 1, 0, 0, 0, 0, 4⟩ := by decide

-- A14 and A11: a PC destination lands 4 beyond 42; an unrecognised source is 0 and not 9.
theorem test_step_add_namespace :
    regsAfter (stateWith ⟨40, 2, 0, 0, 0, 0, 8⟩ ⟨0x00, 0, 1, 6⟩) = some ⟨40, 2, 0, 0, 0, 0, 46⟩ ∧
    regsAfter (stateWith ⟨7, 99, 0, 0, 0, 0, 0⟩ ⟨0x00, 0, 9, 1⟩) = some ⟨7, 7, 0, 0, 0, 0, 4⟩ := by decide

-- I2 (S4) and I10: 250 + 10 gives 5; the immediate 5 is not REG5.
theorem test_step_addi :
    regsAfter (stateWith ⟨250, 0, 0, 0, 0, 0, 0⟩ ⟨0x01, 0, 0x0A, 0⟩) = some ⟨5, 0, 0, 0, 0, 0, 4⟩ ∧
    regsAfter (stateWith ⟨0, 1, 0, 0, 0, 100, 0⟩ ⟨0x01, 1, 5, 1⟩) = some ⟨0, 6, 0, 0, 0, 100, 4⟩ := by decide

-- I11 and A12: a computed jump writes 16 and lands on 20; a write to IO is discarded.
theorem test_step_addi_pc_and_io :
    regsAfter (stateWith ⟨0, 8, 0, 0, 0, 0, 12⟩ ⟨0x01, 1, 8, 6⟩) = some ⟨0, 8, 0, 0, 0, 0, 20⟩ ∧
    regsAfter (stateWith ⟨7, 9, 0, 0, 0, 0, 0⟩ ⟨0x00, 0, 1, 7⟩) = some ⟨7, 9, 0, 0, 0, 0, 4⟩ := by decide

-- N1 (S2) and N8: 170 & 15 = 10; 0xF0 & 0x3C = 48 to the PC lands on 52.
theorem test_step_and :
    regsAfter (stateWith ⟨170, 15, 0, 0, 0, 0, 0⟩ ⟨0x02, 0, 1, 2⟩) = some ⟨170, 15, 10, 0, 0, 0, 4⟩ ∧
    regsAfter (stateWith ⟨0xF0, 0x3C, 0, 0, 0, 0, 8⟩ ⟨0x02, 0, 1, 6⟩) = some ⟨0xF0, 0x3C, 0, 0, 0, 0, 52⟩ := by decide

-- M4 and M5: the immediate 1 is not REG1; the PC reads its own, misaligned address 30.
theorem test_step_andi :
    regsAfter (stateWith ⟨201, 0, 0, 0, 0, 0, 0⟩ ⟨0x03, 0, 1, 1⟩) = some ⟨201, 1, 0, 0, 0, 0, 4⟩ ∧
    regsAfter (stateWith ⟨0, 0, 0, 0, 0, 0, 30⟩ ⟨0x03, 6, 0xFC, 3⟩) = some ⟨0, 0, 0, 28, 0, 0, 34⟩ := by decide

-- J1 (S3) and J2: taken to 0, not 16; not taken.
theorem test_step_ifeq :
    regsAfter (stateWith ⟨0, 0, 7, 7, 0, 0, 12⟩ ⟨0x40, 2, 3, 0⟩) = some ⟨0, 0, 7, 7, 0, 0, 0⟩ ∧
    regsAfter (stateWith ⟨0, 0, 7, 8, 0, 0, 12⟩ ⟨0x40, 2, 3, 0⟩) = some ⟨0, 0, 7, 8, 0, 0, 16⟩ := by decide

-- J4 and J12: IO and an unrecognised address both read 0; the target 255 is stored unreduced.
theorem test_step_ifeq_namespace :
    regsAfter (stateWith ⟨0, 0, 0, 0, 0, 0, 4⟩ ⟨0x40, 7, 0x99, 17⟩) = some ⟨0, 0, 0, 0, 0, 0, 17⟩ ∧
    regsAfter (stateWith ⟨0, 0, 0, 0, 0, 0, 24⟩ ⟨0x40, 1, 1, 255⟩) = some ⟨0, 0, 0, 0, 0, 0, 255⟩ := by decide

-- U1, U3, U4, U5 and U8: nothing but the PC moves.
theorem test_step_no_handler :
    regsAfter (stateWith ⟨1, 2, 0, 0, 0, 0, 12⟩ ⟨0x41, 0, 1, 0⟩) = some ⟨1, 2, 0, 0, 0, 0, 16⟩ ∧
    regsAfter (stateWith ⟨0, 0, 0, 0, 0, 0, 4⟩ ⟨0x80, 1, 2, 3⟩) = some ⟨0, 0, 0, 0, 0, 0, 8⟩ ∧
    regsAfter (stateWith ⟨9, 0, 0, 0, 0, 0, 4⟩ ⟨0x81, 0, 0, 0⟩) = some ⟨9, 0, 0, 0, 0, 0, 8⟩ ∧
    regsAfter (stateWith ⟨9, 0, 0, 0, 0, 0, 20⟩ ⟨0xFF, 1, 2, 3⟩) = some ⟨9, 0, 0, 0, 0, 0, 24⟩ ∧
    regsAfter (stateWith ⟨0, 0, 0, 0, 0, 0, 252⟩ ⟨0xC0, 6, 6, 6⟩) = some ⟨0, 0, 0, 0, 0, 0, 1⟩ := by decide

/-! ## Fetch, the ends of the store -/

-- F1 and F2: with 255 bytes the PC 251 fetches and wraps to 0; the PC 252 overruns at 255.
theorem test_fetch_at_255 :
    regsAfter ⟨⟨0, 0, 0, 0, 0, 0, 251⟩, false, [], [], [(251, 1), (253, 1)], 255⟩ = some ⟨1, 0, 0, 0, 0, 0, 0⟩ ∧
    faultOf ⟨⟨0, 0, 0, 0, 0, 0, 252⟩, false, [], [], [(252, 1), (254, 1)], 255⟩ = some (.fetchOverrun 255 252) := by
  decide

-- F3 and F6: the check is made even for a no-op, and one byte short is too short.
theorem test_fetch_overrun :
    faultOf ⟨⟨0, 0, 0, 0, 0, 0, 253⟩, false, [], [], [(253, 0xFF)], 255⟩ = some (.fetchOverrun 255 253) ∧
    faultOf ⟨⟨0, 0, 0, 0, 0, 0, 254⟩, false, [], [], [(254, 1), (256, 1)], 257⟩ = some (.fetchOverrun 257 254) := by
  decide

-- F8, and the reset state before a program is supplied (log 2).
theorem test_fetch_short_program :
    faultOf (State.reset.loadProgram [0x01, 0x00, 0x01]) = some (.fetchOverrun 3 0) ∧
    faultOf State.reset = some (.fetchOverrun 0 0) := by decide

-- S1, through the host's load: registers all zero, ADDI REG0, 5, REG0 at PC 0.
theorem test_load_and_step :
    regsAfter (State.reset.loadProgram [0x01, 0x00, 0x05, 0x00]) = some ⟨5, 0, 0, 0, 0, 0, 4⟩ ∧
    regsAfter (State.reset.withFetchWord 32 0x01000500) = some ⟨5, 0, 0, 0, 0, 0, 4⟩ := by decide

theorem test_observe :
    [0, 5, 6, 7, 8, 255].map (State.observe defaultConfig { State.reset with regs := ⟨11, 12, 13, 14, 15, 16, 17⟩ }) =
      [11, 16, 17, 0, 0, 0] := by decide

/-! ## Witnesses: each statement's hypotheses are met -/

theorem defaultConfig_distinct : defaultConfig.Distinct := by decide

/-- Another record of distinct codes. -/
def otherConfig : Config :=
  ⟨9, 8, 7, 6, 5, 4, 3, 2, 0x10, 0x20, 0x30, 0x40, 0x50, 0x60, 0x70, 0x80⟩

theorem witness_DecodeOfEncode :
    defaultConfig.Distinct ∧ (Instr.add (.unrecognised 8) .io (.cell .pc)).wf defaultConfig = true ∧
    (Instr.unassigned 0x04 0 0 0).wf defaultConfig = true ∧ (Instr.unassigned 0xFF 1 2 3).wf defaultConfig = true := by
  decide

theorem witness_EveryEncodingRuns :
    (0x04 : Byte) ∉ defaultConfig.handlerCodes ∧ (0x41 : Byte) ∉ defaultConfig.handlerCodes ∧
    (stateWith ⟨0, 0, 0, 0, 0, 0, 3⟩ ⟨0x41, 1, 2, 3⟩).FetchInside ∧
    (stateWith ⟨0, 0, 0, 0, 0, 0, 3⟩ ⟨0x41, 1, 2, 3⟩).bytesAt 3 = ⟨0x41, 1, 2, 3⟩ := by
  unfold State.FetchInside
  decide

theorem witness_DefaultOpcodeMap :
    (0x04 : Byte) ∉ ([0x00, 0x01, 0x02, 0x03, 0x40, 0x41, 0x80, 0x81] : List Byte) ∧
    (0xFF : Byte) ∉ ([0x00, 0x01, 0x02, 0x03, 0x40, 0x41, 0x80, 0x81] : List Byte) := by decide

theorem witness_DefaultAddressCodes : 8 ≤ (8 : Byte).toNat ∧ 8 ≤ (255 : Byte).toNat := by decide

theorem witness_WordNotationIsFaithful : 0xFFFFFFFF < 2 ^ 32 := by decide

theorem witness_InstructionsAreFourBytes : ([1, 2, 3] : List Byte).length < 4 ∧ ([] : List Byte).length < 4 := by decide

theorem witness_OperandAccessors :
    defaultConfig.Distinct ∧ (8 : Byte) ∉ defaultConfig.addressCodes ∧ (7 : Byte) = defaultConfig.aIo ∧
    (6 : Byte) ∈ defaultConfig.addressCodes ∧ (6 : Byte) ≠ defaultConfig.aIo := by decide

theorem witness_UnrecognisedAddressesAreInert : (8 : Byte) ∉ defaultConfig.addressCodes := by decide

/-- The execute step of ADD on a cell destination, which is also a source, and on the IO stub. -/
theorem witness_AddResult :
    defaultConfig.Distinct ∧
    exec (.add (.cell .reg0) (.cell .reg0) (.cell .reg0)) { State.reset with regs := ⟨200, 0, 0, 0, 0, 0, 0⟩ } =
      .next { State.reset with regs := ⟨145, 0, 0, 0, 0, 0, 0⟩ } ∧
    exec (.add (.cell .reg0) .io .io) State.reset = .next State.reset ∧ ∀ r, Addr.io ≠ .cell r :=
  ⟨by decide, rfl, rfl, fun _ => nofun⟩

theorem witness_AddiResult :
    defaultConfig.Distinct ∧
    exec (.addi (.cell .reg1) 255 (.cell .pc)) { State.reset with regs := ⟨0, 7, 0, 0, 0, 0, 9⟩ } =
      .next { State.reset with regs := ⟨0, 7, 0, 0, 0, 0, 7⟩ } ∧
    exec (.addi .io 9 (.unrecognised 8)) State.reset = .next State.reset ∧ ∀ r, Addr.unrecognised 8 ≠ .cell r :=
  ⟨by decide, rfl, rfl, fun _ => nofun⟩

theorem witness_AndResult :
    defaultConfig.Distinct ∧
    exec (.and (.cell .reg0) (.cell .reg1) (.cell .reg1)) { State.reset with regs := ⟨255, 255, 0, 0, 0, 0, 0⟩ } =
      .next { State.reset with regs := ⟨255, 255, 0, 0, 0, 0, 0⟩ } ∧
    exec (.and (.cell .reg0) (.cell .reg1) .io) State.reset = .next State.reset ∧ ∀ r, Addr.io ≠ .cell r :=
  ⟨by decide, rfl, rfl, fun _ => nofun⟩

theorem witness_AndiResult :
    defaultConfig.Distinct ∧
    exec (.andi (.cell .reg0) 0x80 (.cell .reg5)) { State.reset with regs := ⟨254, 0, 0, 0, 0, 0, 0⟩ } =
      .next { State.reset with regs := ⟨254, 0, 0, 0, 0, 128, 0⟩ } ∧
    exec (.andi (.cell .reg0) 1 (.unrecognised 255)) State.reset = .next State.reset ∧
    ∀ r, Addr.unrecognised 255 ≠ .cell r :=
  ⟨by decide, rfl, rfl, fun _ => nofun⟩

theorem witness_AdditionCaseTable :
    (254 : Byte).toNat + (0 : Byte).toNat ≤ 254 ∧ (254 : Byte).toNat + (1 : Byte).toNat = 255 ∧
    256 ≤ (254 : Byte).toNat + (2 : Byte).toNat ∧ (255 : Byte).toNat + (254 : Byte).toNat ≤ 509 ∧
    (255 : Byte).toNat + (255 : Byte).toNat = 510 ∧ (254 : Byte).toNat ≤ 254 := by decide

theorem witness_AndLaws : (254 : Byte).toNat ≤ 254 ∨ (255 : Byte).toNat ≤ 254 := by decide

theorem witness_AdditionTicks :
    fetchedInstr defaultConfig (stateWith ⟨1, 2, 0, 0, 0, 0, 0⟩ ⟨0x00, 0, 1, 2⟩) =
      .ok (.add (.cell .reg0) (.cell .reg1) (.cell .reg2)) ∧
    fetchedInstr defaultConfig (stateWith ⟨1, 2, 0, 0, 0, 0, 255⟩ ⟨0x01, 0, 1, 6⟩) =
      .ok (.addi (.cell .reg0) 1 (.cell .pc)) ∧
    fetchedInstr defaultConfig (stateWith ⟨1, 2, 0, 0, 0, 0, 251⟩ ⟨0x01, 0, 1, 7⟩) = .ok (.addi (.cell .reg0) 1 .io) :=
  ⟨rfl, rfl, rfl⟩

theorem witness_LogicTicks :
    fetchedInstr defaultConfig (stateWith ⟨1, 2, 0, 0, 0, 0, 0⟩ ⟨0x02, 0, 1, 2⟩) =
      .ok (.and (.cell .reg0) (.cell .reg1) (.cell .reg2)) ∧
    fetchedInstr defaultConfig (stateWith ⟨1, 2, 0, 0, 0, 0, 254⟩ ⟨0x03, 0, 1, 6⟩) =
      .ok (.andi (.cell .reg0) 1 (.cell .pc)) ∧
    fetchedInstr defaultConfig (stateWith ⟨1, 2, 0, 0, 0, 0, 0⟩ ⟨0x03, 0, 1, 8⟩) =
      .ok (.andi (.cell .reg0) 1 (.unrecognised 8)) :=
  ⟨rfl, rfl, rfl⟩

theorem witness_IfeqJumps :
    defaultConfig.Distinct ∧
    fetchedInstr defaultConfig (stateWith ⟨7, 7, 8, 0, 0, 0, 0⟩ ⟨0x40, 0, 1, 255⟩) =
      .ok (.ifeq (.cell .reg0) (.cell .reg1) 255) ∧
    getOperand (.cell .reg0) (stateWith ⟨7, 7, 8, 0, 0, 0, 0⟩ ⟨0x40, 0, 1, 255⟩) =
      getOperand (.cell .reg1) (stateWith ⟨7, 7, 8, 0, 0, 0, 0⟩ ⟨0x40, 0, 1, 255⟩) ∧
    fetchedInstr defaultConfig (stateWith ⟨7, 7, 8, 0, 0, 0, 254⟩ ⟨0x40, 0, 2, 9⟩) =
      .ok (.ifeq (.cell .reg0) (.cell .reg2) 9) ∧
    getOperand (.cell .reg0) (stateWith ⟨7, 7, 8, 0, 0, 0, 254⟩ ⟨0x40, 0, 2, 9⟩) ≠
      getOperand (.cell .reg2) (stateWith ⟨7, 7, 8, 0, 0, 0, 254⟩ ⟨0x40, 0, 2, 9⟩) :=
  ⟨by decide, rfl, rfl, rfl, by decide⟩

theorem witness_IfneDoesNothing :
    defaultConfig.Distinct ∧
    fetchedInstr defaultConfig (stateWith ⟨1, 2, 0, 0, 0, 0, 12⟩ ⟨0x41, 0, 1, 0⟩) = .ok (.ifne 0 1 0) :=
  ⟨by decide, rfl⟩

theorem witness_LoadAndSaveDoNothing :
    defaultConfig.Distinct ∧
    fetchedInstr defaultConfig (stateWith ⟨1, 2, 0, 0, 0, 0, 12⟩ ⟨0x80, 1, 2, 3⟩) = .ok (.load 1 2 3) ∧
    fetchedInstr defaultConfig (stateWith ⟨1, 2, 0, 0, 0, 0, 255⟩ ⟨0x81, 1, 2, 3⟩) = .ok (.save 1 2 3) :=
  ⟨by decide, rfl, rfl⟩

theorem witness_UnassignedOpcodesDoNothing :
    (0x04 : Byte) ∉ defaultConfig.opcodeCodes ∧ (0x82 : Byte) ∉ defaultConfig.opcodeCodes ∧
    fetchedInstr defaultConfig (stateWith ⟨1, 2, 0, 0, 0, 0, 12⟩ ⟨0x3F, 1, 2, 3⟩) = .ok (.unassigned 0x3F 1 2 3) :=
  ⟨by decide, by decide, rfl⟩

theorem witness_StepRunsTheDecodedInstruction :
    (stateWith ⟨1, 2, 0, 0, 0, 0, 255⟩ ⟨0x00, 0, 1, 2⟩).FetchInside ∧
    decode defaultConfig ((stateWith ⟨1, 2, 0, 0, 0, 0, 255⟩ ⟨0x00, 0, 1, 2⟩).bytesAt 255) =
      .add (.cell .reg0) (.cell .reg1) (.cell .reg2) := by
  unfold State.FetchInside
  decide

theorem witness_FetchReadsFourBytes :
    (stateWith ⟨0, 0, 0, 0, 0, 0, 255⟩ ⟨1, 0, 1, 0⟩).regs.pc.toNat + 3 <
      (stateWith ⟨0, 0, 0, 0, 0, 0, 255⟩ ⟨1, 0, 1, 0⟩).progLen ∧
    (stateWith ⟨0, 0, 0, 0, 0, 0, 255⟩ ⟨1, 0, 1, 0⟩).progLen = 259 := by decide

theorem witness_FetchOverrunFaults :
    State.reset.progLen ≤ State.reset.regs.pc.toNat + 3 ∧
    ({ State.reset with regs := ⟨0, 0, 0, 0, 0, 0, 252⟩, progLen := 255 } : State).progLen ≤
      ({ State.reset with regs := ⟨0, 0, 0, 0, 0, 0, 252⟩, progLen := 255 } : State).regs.pc.toNat + 3 := by decide

theorem witness_TickCompletesExactlyInside :
    tick defaultConfig State.reset = .fault (.fetchOverrun 0 0) ∧
    tick defaultConfig (stateWith ⟨0, 0, 0, 0, 0, 0, 0⟩ ⟨0x80, 0, 0, 0⟩) =
      .next (stateWith ⟨0, 0, 0, 0, 0, 0, 0⟩ ⟨0x80, 0, 0, 0⟩ |>.setCell .pc 4) :=
  ⟨rfl, rfl⟩

theorem witness_DefaultLengthRange :
    ({ State.reset with progLen := 255 } : State).progLen = Config.defaultProgLen ∧
    259 ≤ ({ State.reset with progLen := 259 } : State).progLen := by decide

/-- The state an IFEQ leaves between execute and advance. -/
theorem witness_SignalledJumpAdvance :
    State.reset.jf = false ∧ exec (.ifeq .io .io 9) State.reset = .next (State.reset.setCell .pc 9).raiseJump ∧
    (State.reset.setCell .pc 9).raiseJump.jf = true :=
  ⟨rfl, rfl, rfl⟩

theorem witness_SequentialAdvance :
    State.reset.jf = false ∧ (∀ a b target, Instr.ifne 0 0 0 = .ifeq a b target → getOperand a State.reset ≠ getOperand b State.reset) ∧
    (254 : Byte).toNat ≤ 254 :=
  ⟨rfl, fun _ _ _ => nofun, by decide⟩

theorem witness_JumpFlagIsDownAfterEveryTick :
    ∃ t, tick defaultConfig (stateWith ⟨0, 0, 0, 0, 0, 0, 0⟩ ⟨0x40, 7, 7, 9⟩) = .next t := ⟨_, rfl⟩

theorem witness_GeneralRegistersChangeOnlyAsDestination :
    Reg.reg0 ≠ .pc ∧ ∃ t, tick defaultConfig (stateWith ⟨250, 0, 0, 0, 0, 0, 0⟩ ⟨0x01, 0, 0x0A, 0⟩) = .next t ∧
      t.cell .reg0 ≠ (stateWith ⟨250, 0, 0, 0, 0, 0, 0⟩ ⟨0x01, 0, 0x0A, 0⟩).cell .reg0 :=
  ⟨by decide, _, rfl, by decide⟩

theorem witness_PcAfterTick :
    (Instr.addi .io 9 (.cell .pc)).destination = some (.cell .pc) ∧ (Instr.load 0 0 0).destination ≠ some (.cell .pc) ∧
    (∃ t, tick defaultConfig (stateWith ⟨0, 0, 0, 0, 0, 0, 0⟩ ⟨0x40, 7, 7, 9⟩) = .next t ∧ t.regs.pc.toNat ≠ 4) ∧
    (∃ t, tick defaultConfig (stateWith ⟨0, 0, 0, 0, 0, 0, 0⟩ ⟨0x01, 7, 9, 6⟩) = .next t ∧ t.regs.pc.toNat ≠ 4) :=
  ⟨rfl, by decide, ⟨_, rfl, by decide⟩, ⟨_, rfl, by decide⟩⟩

theorem witness_ProgramStoreIsNeitherReadNorWritten :
    (∃ t, tick defaultConfig (stateWith ⟨1, 0, 0, 0, 0, 0, 0⟩ ⟨0x81, 7, 7, 9⟩) = .next t) ∧
    (∃ t, exec (.save 7 7 9) State.reset = .next t) :=
  ⟨⟨_, rfl⟩, ⟨_, rfl⟩⟩

theorem witness_RamAndStackAreInert :
    (∃ t, tick defaultConfig { stateWith ⟨1, 0, 0, 0, 0, 0, 0⟩ ⟨0x81, 7, 7, 9⟩ with ram := [(254, 1)] } = .next t) ∧
    (∃ t, exec (.load 7 7 9) State.reset = .next t) :=
  ⟨⟨_, rfl⟩, ⟨_, rfl⟩⟩

/-- Two states that agree on the registers and on a program of four bytes and on nothing else, both of which step; and two
such states whose ticks both overrun. -/
theorem witness_OutcomeDependsOnRegistersAndProgramOnly :
    SameRegistersAndProgram (stateWith ⟨250, 0, 0, 0, 0, 0, 0⟩ ⟨0x01, 0, 0x0A, 0⟩)
      { stateWith ⟨250, 0, 0, 0, 0, 0, 0⟩ ⟨0x01, 0, 0x0A, 0⟩ with jf := true, ram := [(0, 1)], stack := [(1, 2)] } ∧
    regsAfter (stateWith ⟨250, 0, 0, 0, 0, 0, 0⟩ ⟨0x01, 0, 0x0A, 0⟩) = some ⟨5, 0, 0, 0, 0, 0, 4⟩ ∧
    regsAfter { stateWith ⟨250, 0, 0, 0, 0, 0, 0⟩ ⟨0x01, 0, 0x0A, 0⟩ with
      jf := true, ram := [(0, 1)], stack := [(1, 2)] } = some ⟨5, 0, 0, 0, 0, 0, 4⟩ ∧
    SameRegistersAndProgram (State.reset.loadProgram [1, 0, 1]) { State.reset.loadProgram [1, 0, 1] with jf := true } ∧
    faultOf { State.reset.loadProgram [1, 0, 1] with jf := true } = some (.fetchOverrun 3 0) :=
  ⟨⟨rfl, rfl, fun _ _ => rfl⟩, by decide, by decide, ⟨rfl, rfl, fun _ _ => rfl⟩, by decide⟩

theorem witness_EveryTransitionKeepsWf :
    (stateWith ⟨0, 0, 0, 0, 0, 0, 0⟩ ⟨0x40, 7, 7, 9⟩).wf = true ∧
    ∃ t, step (stateWith ⟨0, 0, 0, 0, 0, 0, 0⟩ ⟨0x40, 7, 7, 9⟩) = .next t :=
  ⟨by decide, _, rfl⟩

theorem witness_RangeLaw :
    ((stateWith ⟨254, 0, 0, 0, 0, 0, 0⟩ ⟨0x40, 7, 7, 254⟩).InRange ∧
      (stateWith ⟨254, 0, 0, 0, 0, 0, 0⟩ ⟨0x40, 7, 7, 254⟩).NoTarget255 defaultConfig) ∧
    ∃ t, tick defaultConfig (stateWith ⟨254, 0, 0, 0, 0, 0, 0⟩ ⟨0x40, 7, 7, 254⟩) = .next t := by
  refine ⟨⟨?_, ?_⟩, _, rfl⟩
  · intro r
    cases r <;> decide
  · intro i hi a b h
    have hi : i + 3 < 4 := hi
    obtain rfl : i = 0 := by omega
    have h : Instr.ifeq .io .io 254 = .ifeq a b 255 := h
    simp at h

theorem witness_Only255TargetsLeaveTheRange :
    (stateWith ⟨254, 0, 0, 0, 0, 0, 0⟩ ⟨0x40, 7, 7, 255⟩).InRange ∧
    ∃ t, tick defaultConfig (stateWith ⟨254, 0, 0, 0, 0, 0, 0⟩ ⟨0x40, 7, 7, 255⟩) = .next t ∧ ¬ t.InRange := by
  refine ⟨?_, _, rfl, fun h => ?_⟩
  · intro r
    cases r <;> decide
  · exact absurd (h .pc) (by decide)

theorem witness_FirstFetchIsAtZero : 4 ≤ (State.reset.loadProgram [1, 0, 5, 0]).progLen := by decide

theorem witness_SelfJumpsAreQuiescent :
    fetchedInstr defaultConfig (stateWith ⟨0, 3, 0, 0, 0, 0, 255⟩ ⟨0x40, 1, 1, 255⟩) =
      .ok (.ifeq (.cell .reg1) (.cell .reg1) 255) ∧
    (stateWith ⟨0, 3, 0, 0, 0, 0, 255⟩ ⟨0x40, 1, 1, 255⟩).jf = false ∧
    fetchedInstr defaultConfig (stateWith ⟨0, 3, 0, 0, 0, 0, 0⟩ ⟨0x01, 7, 251, 6⟩) = .ok (.addi .io 251 (.cell .pc)) ∧
    (251 : Byte).toNat = ((0 : Byte).toNat + 251) % 255 ∧
    fetchedInstr defaultConfig (stateWith ⟨0, 3, 0, 0, 0, 0, 254⟩ ⟨0x01, 7, 250, 6⟩) = .ok (.addi .io 250 (.cell .pc)) ∧
    (250 : Byte).toNat = ((254 : Byte).toNat + 251) % 255 :=
  ⟨rfl, rfl, rfl, rfl, rfl, rfl⟩

theorem witness_QuiescentExactlyBySelfJumpOrPcWrite :
    (stateWith ⟨0, 3, 0, 0, 0, 0, 24⟩ ⟨0x40, 1, 1, 24⟩).Quiescent defaultConfig ∧
    (stateWith ⟨0, 3, 0, 0, 0, 0, 24⟩ ⟨0x01, 7, 20, 6⟩).Quiescent defaultConfig :=
  ⟨rfl, rfl⟩

/-- A self-jump at index 4 that a run from index 0 reaches in one tick, and the PC writes at the ends of the PC's range. -/
theorem witness_QuiescentRunsStay :
    ((State.reset.loadProgram [0x40, 7, 7, 4, 0x40, 7, 7, 4]).setCell .pc 4).AtSelfJump defaultConfig ∧
    Host.Core.run Sys2Proof.core 1 (State.reset.loadProgram [0x40, 7, 7, 4, 0x40, 7, 7, 4]) =
      .next ((State.reset.loadProgram [0x40, 7, 7, 4, 0x40, 7, 7, 4]).setCell .pc 4) ∧
    (stateWith ⟨0, 3, 0, 0, 0, 0, 255⟩ ⟨0x40, 1, 1, 255⟩).AtSelfJump defaultConfig ∧
    (stateWith ⟨0, 3, 0, 0, 0, 0, 0⟩ ⟨0x01, 7, 251, 6⟩).AtSelfJump defaultConfig ∧
    (stateWith ⟨0, 3, 0, 0, 0, 0, 254⟩ ⟨0x01, 7, 250, 6⟩).AtSelfJump defaultConfig :=
  ⟨⟨rfl, .inl ⟨.io, .io, rfl, rfl⟩⟩, rfl, ⟨rfl, .inl ⟨.cell .reg1, .cell .reg1, rfl, rfl⟩⟩,
    ⟨rfl, .inr ⟨by decide, 251, rfl, rfl⟩⟩, ⟨rfl, .inr ⟨by decide, 250, rfl, rfl⟩⟩⟩

/-- The renaming that exchanges REG0 and REG1. -/
def swap01 : Reg → Reg
  | .reg0 => .reg1
  | .reg1 => .reg0
  | r => r

theorem witness_GeneralRegistersAreInterchangeable :
    (∀ r, swap01 (swap01 r) = r) ∧ swap01 .pc = .pc ∧
    State.RenamedTo swap01 { State.reset with regs := ⟨1, 2, 3, 4, 5, 6, 7⟩ }
      { State.reset with regs := ⟨2, 1, 3, 4, 5, 6, 7⟩ } ∧
    ∃ t, exec (.add (.cell .reg0) (.cell .reg2) (.cell .reg1)) { State.reset with regs := ⟨1, 2, 3, 4, 5, 6, 7⟩ } =
      .next t :=
  ⟨fun r => by cases r <;> rfl, rfl, ⟨fun r => by cases r <;> rfl, rfl, rfl, rfl, rfl, rfl⟩, _, rfl⟩

theorem witness_CodesDoNotMatter :
    defaultConfig.Distinct ∧ otherConfig.Distinct ∧
    (Instr.add (.cell .reg0) .io (.unrecognised 0xFF)).wf defaultConfig = true ∧
    (Instr.add (.cell .reg0) .io (.unrecognised 0xFF)).wf otherConfig = true ∧
    encode otherConfig (.add (.cell .reg0) .io (.unrecognised 0xFF)) = ⟨9, 0x10, 0x80, 0xFF⟩ ∧
    fetch (stateWith ⟨1, 0, 0, 0, 0, 0, 0⟩ ⟨0, 0, 7, 0xFF⟩) = .ok ⟨0, 0, 7, 0xFF⟩ ∧
    fetch (stateWith ⟨1, 0, 0, 0, 0, 0, 0⟩ ⟨9, 0x10, 0x80, 0xFF⟩) = .ok ⟨9, 0x10, 0x80, 0xFF⟩ :=
  ⟨by decide, by decide, by decide, by decide, by decide, rfl, rfl⟩

theorem witness_IdiomsWork :
    Reg.reg4 ≠ .pc ∧
    fetchedInstr defaultConfig (stateWith ⟨254, 0, 0, 0, 0, 0, 0⟩ ⟨0x40, 0, 0, 255⟩) =
      .ok (.ifeq (.cell .reg0) (.cell .reg0) 255) ∧
    (getOperand (.cell .reg0) (stateWith ⟨254, 0, 0, 0, 0, 0, 0⟩ ⟨0x01, 0, 0, 4⟩)).toNat ≤ 254 ∧
    fetchedInstr defaultConfig (stateWith ⟨254, 0, 0, 0, 0, 0, 0⟩ ⟨0x01, 0, 0, 4⟩) =
      .ok (.addi (.cell .reg0) 0 (.cell .reg4)) ∧
    fetchedInstr defaultConfig (stateWith ⟨255, 0, 0, 0, 0, 0, 0⟩ ⟨0x02, 0, 0, 4⟩) =
      .ok (.and (.cell .reg0) (.cell .reg0) (.cell .reg4)) ∧
    fetchedInstr defaultConfig (stateWith ⟨255, 0, 0, 0, 0, 0, 0⟩ ⟨0x01, 7, 254, 4⟩) =
      .ok (.addi .io 254 (.cell .reg4)) ∧ (254 : Byte).toNat ≤ 254 ∧
    fetchedInstr defaultConfig (stateWith ⟨255, 0, 0, 0, 0, 0, 0⟩ ⟨0x03, 4, 0, 4⟩) =
      .ok (.andi (.cell .reg4) 0 (.cell .reg4)) ∧
    fetchedInstr defaultConfig (stateWith ⟨255, 0, 0, 0, 0, 0, 0⟩ ⟨0x01, 7, 0, 7⟩) = .ok (.addi .io 0 .io) :=
  ⟨by decide, rfl, by decide, rfl, rfl, rfl, by decide, rfl, rfl⟩

theorem witness_MemoryLaws :
    Memory.wf 5 [(0, 1), (4, 2)] = true ∧ Memory.wf 5 [(0, 1), (5, 2)] = false ∧ Memory.wf 5 [(0, 0)] = false ∧
    Memory.wf 5 [(4, 2), (0, 1)] = false ∧
    (∀ n, Memory.read [(0, 1), (4, 2)] n = Memory.read ((Memory.write [(4, 2)] 0 1)) n) :=
  ⟨rfl, rfl, rfl, rfl, fun _ => rfl⟩

theorem witness_LoadedProgramIsTheStore : 2 < ([5, 0, 6] : List Byte).length := by decide

theorem witness_PlacedWordIsRunNext :
    State.reset.wf = true ∧ decodeTableWord 32 0x40020300 = some (.ifeq (.cell .reg2) (.cell .reg3) 0) := by decide

end Sys2Proof.Tests
end

section
/-! The decoder undoes the encoder (00_scope.md R5): the family RoundTrip, put together over the constructors of `Instr`. -/

namespace Sys2Proof.Machine
open Sys2Proof.Laws

/-- Every instruction has the round trip of its constructor: a named opcode by the distinctness of the codes, an unassigned
one by its well-formedness. -/
theorem roundTrip_statement (i : Instr) : RoundTrip.Statement i := by
  cases i with
  | add s1 s2 d => exact RoundTrip.add s1 s2 d
  | addi s imm d => exact RoundTrip.addi s imm d
  | and s1 s2 d => exact RoundTrip.and s1 s2 d
  | andi s imm d => exact RoundTrip.andi s imm d
  | ifeq a b target => exact RoundTrip.ifeq a b target
  | ifne b1 b2 b3 => exact RoundTrip.ifne b1 b2 b3
  | load b1 b2 b3 => exact RoundTrip.load b1 b2 b3
  | save b1 b2 b3 => exact RoundTrip.save b1 b2 b3
  | unassigned op b1 b2 b3 => exact RoundTrip.unassigned op b1 b2 b3

/-- Settles O1: the law of the family RoundTrip at every instruction. -/
theorem decodeOfEncode : Obligations.DecodeOfEncode := by
  unfold Obligations.DecodeOfEncode
  intro cfg hd i hw
  exact roundTrip_statement i cfg hd hw

end Sys2Proof.Machine
end

section
/-! What the execute step and the tick change and leave unchanged (10_state.md R12, R13, R15, R19, R20), derived once from
`ExecCase`; the statements of family 10_state.md rest on these. -/

namespace Sys2Proof.Machine

/-! ## Cells under the operations -/

@[simp] theorem State.resetEvent_cell (s : State) (r : Reg) : s.resetEvent.cell r = 0 := by
  cases r <;> rfl

@[simp] theorem State.reset_cell (r : Reg) : State.reset.cell r = 0 := by
  cases r <;> rfl

@[simp] theorem State.loadProgram_cell (s : State) (bs : List Byte) (r : Reg) : (s.loadProgram bs).cell r = s.cell r := rfl

/-- A write to an address that names no cell is discarded. -/
theorem setOperand_of_not_cell {a : Addr} (h : ∀ r, a ≠ .cell r) (v : Byte) (s : State) : setOperand a v s = s := by
  cases a with
  | cell r => exact absurd rfl (h r)
  | io => rfl
  | unrecognised b => rfl

/-- A write to one address does not show at another. -/
theorem getOperand_setOperand_other {a b : Addr} (h : b ≠ a) (v : Byte) (s : State) :
    getOperand b (setOperand a v s) = getOperand b s := by
  cases a with
  | io => rfl
  | unrecognised c => rfl
  | cell r =>
    cases b with
    | io => rfl
    | unrecognised c => rfl
    | cell r' => exact s.cell_setCell_other v fun e => h (congrArg Addr.cell e)

theorem setOperand_cell_other {d : Addr} {r : Reg} (h : d ≠ .cell r) (v : Byte) (s : State) :
    (setOperand d v s).cell r = s.cell r :=
  getOperand_setOperand_other (Ne.symm h) v s

/-! ## The effect of the execute step, by kind -/

/-- The three kinds of effect: one ALU result, of an operand read in `s`, written to the destination; a taken IFEQ; none. -/
inductive ExecEffect : Instr → State → State → Prop where
  | writes {i : Instr} {d : Addr} {s : State} (op : AluOp) (a : Addr) (v : Byte) (hd : i.destination = some d) :
      ExecEffect i s (setOperand d (alu op (getOperand a s) v) s)
  | jumps {a b : Addr} {s : State} (target : Byte) (h : getOperand a s = getOperand b s) :
      ExecEffect (.ifeq a b target) s (s.setCell .pc target).raiseJump
  | idles {i : Instr} {s : State} (hd : i.destination = none)
      (hj : ∀ a b target, i = .ifeq a b target → getOperand a s ≠ getOperand b s) : ExecEffect i s s

/-- Every case of the execute step is of one of the three kinds. -/
theorem ExecCase.effect {i : Instr} {s u : State} (h : ExecCase i s u) : ExecEffect i s u := by
  cases h with
  | add s1 s2 d => exact .writes .addMod s1 (getOperand s2 s) rfl
  | addi src imm d => exact .writes .addMod src imm rfl
  | and s1 s2 d => exact .writes .and s1 (getOperand s2 s) rfl
  | andi src imm d => exact .writes .and src imm rfl
  | taken target h => exact .jumps target h
  | notTaken target h => exact .idles rfl fun a b _ e => by cases e; exact h
  | ifne b1 b2 b3 => exact .idles rfl fun _ _ _ => nofun
  | load b1 b2 b3 => exact .idles rfl fun _ _ _ => nofun
  | save b1 b2 b3 => exact .idles rfl fun _ _ _ => nofun
  | unassigned op b1 b2 b3 => exact .idles rfl fun _ _ _ => nofun

/-- The execute step writes no array and no length. -/
theorem ExecEffect.memory {i : Instr} {s u : State} (h : ExecEffect i s u) :
    u.ram = s.ram ∧ u.stack = s.stack ∧ u.prog = s.prog ∧ u.progLen = s.progLen := by
  cases h <;> simp

/-- The execute step changes a general register only if the instruction names it as destination (10_state.md R12). -/
theorem ExecEffect.cell_other {i : Instr} {s u : State} (h : ExecEffect i s u) {r : Reg} (hr : r ≠ .pc)
    (hn : i.destination ≠ some (.cell r)) : u.cell r = s.cell r := by
  cases h with
  | writes op a v hd => exact setOperand_cell_other (fun e => hn (e ▸ hd)) _ s
  | jumps target _ => exact s.cell_setCell_other target hr
  | idles _ _ => rfl

/-- An instruction that writes a destination leaves the flag as it was. -/
theorem ExecEffect.jf_of_destination {i : Instr} {s u : State} (h : ExecEffect i s u) {d : Addr}
    (hd : i.destination = some d) : u.jf = s.jf := by
  cases h with
  | writes op a v _ => exact setOperand_jf _ _ s
  | jumps target _ => exact nomatch hd
  | idles _ _ => rfl

/-! ## The tick -/

/-- If a tick answers `t`, it fetched an instruction, and `t` is the advance of its effect. -/
theorem tick_effect {cfg : Config} {s t : State} (h : tick cfg s = .next t) :
    ∃ i u, fetchedInstr cfg s = .ok i ∧ exec i s.lowerJump = .next u ∧ ExecEffect i s.lowerJump u ∧ t = advance u := by
  obtain ⟨i, u, hf, hu, hc, ht⟩ := tick_next h
  exact ⟨i, u, hf, hu, hc.effect, ht⟩

/-- A tick writes no array and no length (10_state.md R19; 20_memory.md R32). -/
theorem tick_memory {cfg : Config} {s t : State} (h : tick cfg s = .next t) :
    t.ram = s.ram ∧ t.stack = s.stack ∧ t.prog = s.prog ∧ t.progLen = s.progLen := by
  obtain ⟨i, u, -, -, he, rfl⟩ := tick_effect h
  simpa using he.memory

theorem tick_jf {cfg : Config} {s t : State} (h : tick cfg s = .next t) : t.jf = false := by
  obtain ⟨i, u, -, -, -, rfl⟩ := tick_effect h
  exact advance_jf u

/-- With the flag down, the advance puts the successor of the PC into the PC. -/
theorem advance_pc_toNat {s : State} (h : s.jf = false) : (advance s).regs.pc.toNat = (s.regs.pc.toNat + 4) % 255 := by
  rw [advance_down h]
  exact toNat_nextPc s.regs.pc

/-! ## Relations that the execute step keeps -/

/-- A relation between states, under a renaming of cells that fixes the PC, that the operations of the execute step respect:
related states read alike, and stay related under `setOperand` and `raiseJump`. -/
structure Simulation (σ : Reg → Reg) (R : State → State → Prop) : Prop where
  pc : σ .pc = .pc
  get : ∀ {s s'}, R s s' → ∀ a, getOperand (a.rename σ) s' = getOperand a s
  set : ∀ {s s'}, R s s' → ∀ d v, R (setOperand d v s) (setOperand (d.rename σ) v s')
  raise : ∀ {s s'}, R s s' → R s.raiseJump s'.raiseJump

/-- Related states stay related when both take the result of one ALU operation on operands that read alike. -/
theorem Simulation.setAlu {σ : Reg → Reg} {R : State → State → Prop} (h : Simulation σ R) {s s' : State} (hR : R s s')
    (op : AluOp) {v1 v2 v1' v2' : Byte} (h1 : v1' = v1) (h2 : v2' = v2) (d : Addr) :
    R (setOperand d (alu op v1 v2) s) (setOperand (d.rename σ) (alu op v1' v2') s') := by
  rw [h1, h2]
  exact h.set hR d _

/-- The execute step keeps every such relation: the renamed instruction on the related state answers a related state. -/
theorem Simulation.exec {σ : Reg → Reg} {R : State → State → Prop} (h : Simulation σ R) {i : Instr} {s s' t : State}
    (hR : R s s') (ht : exec i s = .next t) : ∃ t', exec (i.rename σ) s' = .next t' ∧ R t t' := by
  cases exec_next ht with
  | add s1 s2 d => exact ⟨_, rfl, h.setAlu hR .addMod (h.get hR s1) (h.get hR s2) d⟩
  | addi src imm d => exact ⟨_, rfl, h.setAlu hR .addMod (h.get hR src) rfl d⟩
  | and s1 s2 d => exact ⟨_, rfl, h.setAlu hR .and (h.get hR s1) (h.get hR s2) d⟩
  | andi src imm d => exact ⟨_, rfl, h.setAlu hR .and (h.get hR src) rfl d⟩
  | @taken a b target _ hab =>
    have hset := h.set hR (.cell .pc) target
    rw [Addr.rename, h.pc] at hset
    exact ⟨_, exec_ifeq_taken target (by rw [h.get hR a, h.get hR b, hab]), h.raise hset⟩
  | @notTaken a b target _ hab =>
    exact ⟨_, exec_ifeq_notTaken target (by rwa [h.get hR a, h.get hR b]), hR⟩
  | ifne b1 b2 b3 => exact ⟨_, rfl, hR⟩
  | load b1 b2 b3 => exact ⟨_, rfl, hR⟩
  | save b1 b2 b3 => exact ⟨_, rfl, hR⟩
  | unassigned op b1 b2 b3 => exact ⟨_, rfl, hR⟩

end Sys2Proof.Machine
end

section
/-! The form of a state (10_state.md R15, R19, R21): every transition keeps it, and reset meets it. -/

namespace Sys2Proof.Machine

theorem State.wf_iff {s : State} :
    s.wf = true ↔ s.jf = false ∧ Memory.wf Config.ramSize s.ram = true ∧ Memory.wf Config.stackSize s.stack = true ∧
      Memory.wf s.progLen s.prog = true := by
  simp [State.wf, and_assoc]

theorem tick_wf {cfg : Config} {s t : State} (hw : s.wf = true) (h : tick cfg s = .next t) : t.wf = true := by
  obtain ⟨-, hram, hstack, hprog⟩ := State.wf_iff.mp hw
  obtain ⟨eram, estack, eprog, elen⟩ := tick_memory h
  exact State.wf_iff.mpr ⟨tick_jf h, eram ▸ hram, estack ▸ hstack, by rwa [eprog, elen]⟩

theorem State.wf_resetEvent {s : State} (hw : s.wf = true) : s.resetEvent.wf = true := by
  obtain ⟨-, -, -, hprog⟩ := State.wf_iff.mp hw
  exact State.wf_iff.mpr ⟨rfl, rfl, rfl, hprog⟩

theorem State.wf_loadProgram {s : State} (bytes : List Byte) (hw : s.wf = true) : (s.loadProgram bytes).wf = true := by
  obtain ⟨hjf, hram, hstack, -⟩ := State.wf_iff.mp hw
  exact State.wf_iff.mpr ⟨hjf, hram, hstack, Memory.wf_ofBytes bytes⟩

/-- Placing an instruction keeps the form: the store is first made long enough, and each of the four writes is inside it. -/
theorem wf_placeAtPc {s : State} (w : InstrBytes) (hw : s.wf = true) : (placeAtPc w s).wf = true := by
  obtain ⟨hjf, hram, hstack, hprog⟩ := State.wf_iff.mp hw
  have hlong : Memory.wf (max s.progLen (s.regs.pc.toNat + 4)) s.prog = true :=
    Memory.wfFrom_size (Nat.le_max_left _ _) hprog
  refine State.wf_iff.mpr ⟨hjf, hram, hstack, ?_⟩
  rw [placeAtPc_progLen]
  exact Memory.wf_write (Memory.wf_write (Memory.wf_write (Memory.wf_write hlong (by omega)) (by omega)) (by omega))
    (by omega)

theorem State.wf_reset : State.reset.wf = true := rfl

/-- Settles O38: each transition by its own lemma; a tick changes no array and leaves the flag down. -/
theorem everyTransitionKeepsWf : Obligations.EveryTransitionKeepsWf := by
  unfold Obligations.EveryTransitionKeepsWf
  exact ⟨fun _ _ hw h => tick_wf hw h, fun _ _ _ hw h => tick_wf hw h, fun _ hw => State.wf_resetEvent hw,
    fun _ bytes hw => State.wf_loadProgram bytes hw, fun _ nbits w hw => wf_placeAtPc (tableWordBytes nbits w) hw⟩

/-- Settles O39: a load keeps the form that reset has. -/
theorem wfHoldsAtReset : Obligations.WfHoldsAtReset := by
  unfold Obligations.WfHoldsAtReset
  exact ⟨State.wf_reset, fun bytes => State.wf_loadProgram bytes State.wf_reset⟩

end Sys2Proof.Machine
end

section
/-! The range law (10_state.md R20): what enters a register is at most 254, but for the target 255 of a taken IFEQ. -/

namespace Sys2Proof.Machine

theorem State.InRange.getOperand_le {s : State} (h : s.InRange) (a : Addr) : (getOperand a s).toNat ≤ 254 := by
  cases a with
  | cell r => exact h r
  | io => simp
  | unrecognised b => simp

/-- A sum is reduced modulo 255, and an AND is at most its first operand. -/
theorem alu_le (op : AluOp) {a : Byte} (b : Byte) (ha : a.toNat ≤ 254) : (alu op a b).toNat ≤ 254 := by
  cases op with
  | addMod =>
    have h : (alu .addMod a b).toNat = (a.toNat + b.toNat) % 255 := toNat_addMod a b
    omega
  | and =>
    have h : (alu .and a b).toNat = a.toNat &&& b.toNat := BitVec.toNat_and a b
    have hle := Nat.and_le_left (n := a.toNat) (m := b.toNat)
    omega

theorem nextPc_le (pc : Byte) : (nextPc pc).toNat ≤ 254 := by
  have h := toNat_nextPc pc
  omega

theorem State.InRange.setCell {s : State} (h : s.InRange) (r : Reg) {v : Byte} (hv : v.toNat ≤ 254) :
    (s.setCell r v).InRange := by
  intro r'
  by_cases hr : r' = r
  · rwa [hr, State.cell_setCell_same]
  · rw [s.cell_setCell_other v hr]
    exact h r'

theorem State.InRange.setOperand {s : State} (h : s.InRange) (d : Addr) {v : Byte} (hv : v.toNat ≤ 254) :
    (setOperand d v s).InRange := by
  cases d with
  | cell r => exact h.setCell r hv
  | io => exact h
  | unrecognised b => exact h

theorem State.InRange.advance {s : State} (h : s.InRange) : (advance s).InRange := by
  cases hj : s.jf with
  | true => rw [advance_raised hj]; exact h
  | false => rw [advance_down hj]; exact h.setCell .pc (nextPc_le s.regs.pc)

/-- A tick from a state in range ends in range, unless it is a taken IFEQ with the target 255; that one puts 255 in the PC
and changes no general register. -/
theorem tick_inRange_or_target255 {cfg : Config} {s t : State} (hs : s.InRange) (h : tick cfg s = .next t) :
    t.InRange ∨ (t.regs.pc = 255 ∧ SameGeneralRegisters s t ∧
      ∃ a b, fetchedInstr cfg s = .ok (.ifeq a b 255) ∧ getOperand a s = getOperand b s) := by
  obtain ⟨i, u, hf, -, he, rfl⟩ := tick_effect h
  have hl : s.lowerJump.InRange := hs
  cases he with
  | writes op a v hd => exact .inl (hl.setOperand _ (alu_le op v (hl.getOperand_le a))).advance
  | idles _ _ => exact .inl hl.advance
  | @jumps a b _ target hab =>
    by_cases ht : target = 255
    · subst ht
      have hgen : SameGeneralRegisters s (advance (s.lowerJump.setCell .pc 255).raiseJump) := fun r hr =>
        (advance_cell _ hr).trans (s.cell_setCell_other 255 hr)
      exact .inr ⟨rfl, hgen, a, b, hf, by simpa using hab⟩
    · have hle : target.toNat ≤ 254 := by bv_omega
      have hu : (s.lowerJump.setCell .pc target).raiseJump.InRange := hl.setCell .pc hle
      exact .inl hu.advance

/-- With no target 255 in the program, no such IFEQ is fetched. -/
theorem State.NoTarget255.not_fetched {cfg : Config} {s : State} (h : s.NoTarget255 cfg) (a b : Addr) :
    fetchedInstr cfg s ≠ .ok (.ifeq a b 255) := by
  intro hf
  obtain ⟨hin, hdec⟩ := fetchedInstr_ok hf
  exact h s.regs.pc.toNat hin a b hdec

/-- The premise on the targets speaks of the program store alone. -/
theorem State.NoTarget255.of_prog_eq {cfg : Config} {s t : State} (h : s.NoTarget255 cfg) (hp : t.prog = s.prog)
    (hl : t.progLen = s.progLen) : t.NoTarget255 cfg := by
  have hb : ∀ i, t.bytesAt i = s.bytesAt i := fun i => by simp only [State.bytesAt, State.progByte, hp]
  intro i hi
  rw [hb]
  exact h i (hl ▸ hi)

/-- Settles O40: the exception of `tick_inRange_or_target255` is excluded by the program, which no tick changes. -/
theorem rangeLaw : Obligations.RangeLaw := by
  unfold Obligations.RangeLaw
  rintro cfg s t ⟨hs, hn⟩ h
  obtain ⟨-, -, hprog, hlen⟩ := tick_memory h
  refine ⟨(tick_inRange_or_target255 hs h).resolve_right ?_, hn.of_prog_eq hprog hlen⟩
  rintro ⟨-, -, a, b, hf, -⟩
  exact hn.not_fetched a b hf

/-- Settles O42: the exception of `tick_inRange_or_target255`. -/
theorem only255TargetsLeaveTheRange : Obligations.Only255TargetsLeaveTheRange := by
  unfold Obligations.Only255TargetsLeaveTheRange
  intro cfg s t hs h ht
  exact (tick_inRange_or_target255 hs h).resolve_left ht

/-- Settles O41: reset zeroes every register, and a load changes none. -/
theorem rangeHoldsAtReset : Obligations.RangeHoldsAtReset := by
  unfold Obligations.RangeHoldsAtReset State.InRange
  exact ⟨fun r => by simp, fun bytes r => by simp⟩

end Sys2Proof.Machine
end

section
/-! The general registers are interchangeable (10_state.md R11): renaming cells is a simulation of the execute step. -/

namespace Sys2Proof.Machine

theorem State.RenamedTo.getOperand {σ : Reg → Reg} {s s' : State} (h : State.RenamedTo σ s s') (a : Addr) :
    getOperand (a.rename σ) s' = getOperand a s := by
  cases a with
  | cell r => exact h.1 r
  | io => rfl
  | unrecognised b => rfl

/-- The renamed write changes the renamed cell, and no other since the renaming is injective. -/
theorem State.RenamedTo.setCell {σ : Reg → Reg} (hσ : Function.Injective σ) {s s' : State}
    (h : State.RenamedTo σ s s') (r : Reg) (v : Byte) : State.RenamedTo σ (s.setCell r v) (s'.setCell (σ r) v) := by
  obtain ⟨hcell, hrest⟩ := h
  refine ⟨fun r' => ?_, hrest⟩
  by_cases hr : r' = r
  · rw [hr, State.cell_setCell_same, State.cell_setCell_same]
  · rw [s.cell_setCell_other v hr, s'.cell_setCell_other v (hσ.ne hr), hcell]

theorem State.RenamedTo.setOperand {σ : Reg → Reg} (hσ : Function.Injective σ) {s s' : State}
    (h : State.RenamedTo σ s s') (d : Addr) (v : Byte) :
    State.RenamedTo σ (setOperand d v s) (setOperand (d.rename σ) v s') := by
  cases d with
  | cell r => exact h.setCell hσ r v
  | io => exact h
  | unrecognised b => exact h

theorem State.RenamedTo.raiseJump {σ : Reg → Reg} {s s' : State} (h : State.RenamedTo σ s s') :
    State.RenamedTo σ s.raiseJump s'.raiseJump := by
  obtain ⟨hcell, -, hmem⟩ := h
  exact ⟨hcell, rfl, hmem⟩

/-- Renaming by an injection that fixes the PC respects every operation of the execute step. -/
theorem renamedTo_simulation {σ : Reg → Reg} (hσ : Function.Injective σ) (hpc : σ .pc = .pc) :
    Simulation σ (State.RenamedTo σ) where
  pc := hpc
  get h a := h.getOperand a
  set h d v := h.setOperand hσ d v
  raise h := h.raiseJump

/-- Settles O48: renaming is a simulation, since a permutation is injective. -/
theorem generalRegistersAreInterchangeable : Obligations.GeneralRegistersAreInterchangeable := by
  unfold Obligations.GeneralRegistersAreInterchangeable
  intro σ τ hτσ _ hpc i s s' t hR ht
  exact (renamedTo_simulation (Function.LeftInverse.injective hτσ) hpc).exec hR ht

end Sys2Proof.Machine
end

section
/-! The accessors over the operand namespace (10_state.md R16, R17, R18). -/

namespace Sys2Proof.Machine

/-- Two bytes that differ name different addresses. -/
theorem decodeAddr_injective (cfg : Config) : Function.Injective (decodeAddr cfg) :=
  Function.LeftInverse.injective (encodeAddr_decodeAddr cfg)

/-- With distinct codes, the code of an address observes it. -/
theorem observe_encodeAddr {cfg : Config} (hd : cfg.Distinct) {a : Addr} (ha : a.wf cfg = true) (s : State) :
    s.observe cfg (encodeAddr cfg a) = getOperand a s := by
  rw [State.observe, decodeAddr_encodeAddr hd ha]

theorem encodeAddr_cell_mem (cfg : Config) (r : Reg) : encodeAddr cfg (.cell r) ∈ cfg.addressCodes := by
  cases r <;> simp [encodeAddr, Config.addressCodes]

/-- With distinct codes, the bytes that name a cell are the address codes but for the code of IO. -/
theorem decodeAddr_cell_iff {cfg : Config} (hd : cfg.Distinct) (a : Byte) :
    (∃ r, decodeAddr cfg a = .cell r) ↔ a ∈ cfg.addressCodes ∧ a ≠ cfg.aIo := by
  have hio : decodeAddr cfg cfg.aIo = .io := decodeAddr_encodeAddr hd (a := .io) rfl
  constructor
  · rintro ⟨r, hr⟩
    have ha : encodeAddr cfg (.cell r) = a := by rw [← hr, encodeAddr_decodeAddr]
    refine ⟨ha ▸ encodeAddr_cell_mem cfg r, ?_⟩
    rintro rfl
    exact nomatch hio.symm.trans hr
  · rintro ⟨hmem, hne⟩
    have ha := encodeAddr_decodeAddr cfg a
    have hw := decodeAddr_wf cfg a
    generalize decodeAddr cfg a = x at ha hw
    cases x with
    | cell r => exact ⟨r, rfl⟩
    | io => exact absurd ha.symm hne
    | unrecognised b =>
      obtain rfl : b = a := ha
      simp [Addr.wf, hmem] at hw

/-- A write to a byte that names no cell changes nothing. -/
theorem setOperand_decodeAddr_of_not_cell {cfg : Config} (hd : cfg.Distinct) {a : Byte}
    (h : ¬ (a ∈ cfg.addressCodes ∧ a ≠ cfg.aIo)) (v : Byte) (s : State) : setOperand (decodeAddr cfg a) v s = s :=
  setOperand_of_not_cell (fun r hr => h ((decodeAddr_cell_iff hd a).mp ⟨r, hr⟩)) v s

/-- What a byte observes after a write: the byte written at the code of a cell, and what it observed before elsewhere. -/
theorem observe_setOperand {cfg : Config} (hd : cfg.Distinct) (a b v : Byte) (s : State) :
    (setOperand (decodeAddr cfg a) v s).observe cfg b =
      if b = a ∧ a ∈ cfg.addressCodes ∧ a ≠ cfg.aIo then v else s.observe cfg b := by
  by_cases hc : a ∈ cfg.addressCodes ∧ a ≠ cfg.aIo
  · by_cases hb : b = a
    · obtain ⟨r, hr⟩ := (decodeAddr_cell_iff hd a).mpr hc
      rw [if_pos ⟨hb, hc⟩, hb, State.observe, hr]
      exact s.cell_setCell_same r v
    · rw [if_neg fun h => hb h.1]
      exact getOperand_setOperand_other ((decodeAddr_injective cfg).ne hb) v s
  · rw [if_neg fun h => hc h.2, setOperand_decodeAddr_of_not_cell hd hc]

theorem observe_unrecognised {cfg : Config} {a : Byte} (h : a ∉ cfg.addressCodes) (s : State) :
    s.observe cfg a = 0 := by
  rw [State.observe, decodeAddr_unrecognised h, getOperand_unrecognised]

theorem sameStores_setOperand (a : Addr) (v : Byte) (s : State) : SameStores s (setOperand a v s) :=
  .of_eq (by simp) (by simp) (by simp) (by simp)

/-- Settles O9: what the codes name, and the read of every byte after a write to every byte. -/
theorem operandAccessors : Obligations.OperandAccessors := by
  unfold Obligations.OperandAccessors
  intro cfg hd s
  have hcell : ∀ r, s.observe cfg (encodeAddr cfg (.cell r)) = s.cell r := fun r => observe_encodeAddr hd rfl s
  refine ⟨⟨hcell .reg0, hcell .reg1, hcell .reg2, hcell .reg3, hcell .reg4, hcell .reg5, hcell .pc,
      observe_encodeAddr hd (a := .io) rfl s⟩,
    fun a ha => observe_unrecognised ha s, fun a b v => observe_setOperand hd a b v s,
    fun a v => ⟨setOperand_jf _ v s, sameStores_setOperand _ v s, fun h => ?_⟩⟩
  exact setOperand_decodeAddr_of_not_cell hd (by tauto) v s

/-- Settles O10: both accessors of IO and of an unrecognised address are the same. -/
theorem ioIsAStub : Obligations.IoIsAStub := by
  unfold Obligations.IoIsAStub
  intro b v s
  exact ⟨getOperand_io s, setOperand_io v s, rfl, rfl⟩

theorem exec_add (s1 s2 d : Addr) (s : State) :
    exec (.add s1 s2 d) s = .next (setOperand d (addMod (getOperand s1 s) (getOperand s2 s)) s) := rfl

/-- The default address codes are the bytes 0 to 7. -/
theorem not_mem_default_addressCodes (a : Byte) : a ∉ defaultConfig.addressCodes ↔ 8 ≤ a.toNat := by
  simp only [Config.addressCodes, defaultConfig, List.mem_cons, List.not_mem_nil, or_false]
  bv_omega

/-- Settles O11: such a byte decodes to an unrecognised address, which reads 0 and discards writes. -/
theorem unrecognisedAddressesAreInert : Obligations.UnrecognisedAddressesAreInert := by
  unfold Obligations.UnrecognisedAddressesAreInert
  refine ⟨fun cfg a ha v s => ⟨observe_unrecognised ha s, ?_, fun s2 d => ?_⟩, not_mem_default_addressCodes⟩
  · rw [decodeAddr_unrecognised ha, setOperand_unrecognised]
  · rw [decodeAddr_unrecognised ha, exec_add, getOperand_unrecognised]
    rfl

end Sys2Proof.Machine
end

section
/-! The general registers, the PC and the flag over a tick (10_state.md R12, R13, R15). -/

namespace Sys2Proof.Machine

/-- Settles O32: every tick ends with the advance, which leaves the flag down. -/
theorem jumpFlagIsDownAfterEveryTick : Obligations.JumpFlagIsDownAfterEveryTick := by
  unfold Obligations.JumpFlagIsDownAfterEveryTick
  exact fun _ _ _ h => tick_jf h

/-- Settles O33: a general register that changed was changed by the execute step, so it is the destination. -/
theorem generalRegistersChangeOnlyAsDestination : Obligations.GeneralRegistersChangeOnlyAsDestination := by
  unfold Obligations.GeneralRegistersChangeOnlyAsDestination
  refine ⟨fun cfg s t r hr h hne => ?_, fun s r hr => advance_cell s hr⟩
  obtain ⟨i, u, hf, hu, he, rfl⟩ := tick_effect h
  rw [advance_cell u hr] at hne
  have hd : i.destination = some (.cell r) := by
    by_contra hd
    exact hne (he.cell_other hr hd)
  refine ⟨i, hf, hd, fun r' hr' hpc => ?_, ?_⟩
  · have hn : i.destination ≠ some (.cell r') := by rw [hd]; simpa using hr'.symm
    rw [advance_cell u hpc]
    exact he.cell_other hpc hn
  · rintro s1 s2 d rfl
    obtain rfl : d = .cell r := Option.some.inj hd
    rw [exec_add] at hu
    cases hu
    rw [advance_cell _ hr]
    simp [toNat_addMod]

/-- Where the PC stands after execute and advance, by the kind of the effect of the execute step. -/
theorem ExecEffect.pc_advance {i : Instr} {s u : State} (h : ExecEffect i s u) (hj : s.jf = false) :
    (∃ a b, i = .ifeq a b (advance u).regs.pc ∧ getOperand a s = getOperand b s) ∨
    i.destination = some (.cell .pc) ∨
    (advance u).regs.pc.toNat = (s.regs.pc.toNat + 4) % 255 := by
  cases h with
  | @jumps a b _ target hab => exact .inl ⟨a, b, rfl, hab⟩
  | idles _ _ => exact .inr (.inr (advance_pc_toNat hj))
  | @writes _ d _ op a v hd =>
    by_cases hpc : d = .cell .pc
    · exact .inr (.inl (hpc ▸ hd))
    · have hu : (setOperand d (alu op (getOperand a s) v) s).regs.pc = s.regs.pc :=
        setOperand_cell_other hpc _ s
      exact .inr (.inr (by rw [advance_pc_toNat (by simpa using hj), hu]))

/-- Settles O34: `ExecEffect.pc_advance` leaves a taken IFEQ, whose target it gives, and a PC destination, which the advance
reads again (decision D4, log 15). -/
theorem pcAfterTick : Obligations.PcAfterTick := by
  unfold Obligations.PcAfterTick
  refine ⟨fun cfg i s t u hf hu h => ?_, fun cfg s t h hne => ?_⟩
  · have hu : exec i s.lowerJump = .next u := hu
    have he := (exec_next hu).effect
    rw [tick_of_fetched hf, executeAndAdvance_of_exec hu] at h
    cases h
    refine ⟨?_, fun hd => advance_pc_toNat (he.jf_of_destination hd), fun hd hn => ?_⟩
    · rintro a b target rfl hab
      rw [exec_ifeq_taken target (by simpa using hab)] at hu
      cases hu
      rfl
    · obtain ⟨a, b, hi, hab⟩ | hd' | hpc := he.pc_advance rfl
      · exact absurd (by simpa using hab) (hn a b _ hi)
      · exact absurd hd' hd
      · exact hpc
  · obtain ⟨i, u, hf, -, he, rfl⟩ := tick_effect h
    refine ⟨i, hf, ?_⟩
    obtain ⟨a, b, hi, hab⟩ | hd | hpc := he.pc_advance rfl
    · exact .inl ⟨a, b, _, hi, by simpa using hab, rfl⟩
    · exact .inr hd
    · exact absurd hpc hne

end Sys2Proof.Machine
end

section
/-! RAM, Stack and the program store are not read by the execute step (10_state.md R19), and what reset leaves
(10_state.md R25). -/

namespace Sys2Proof.Machine

/-- The state with other arrays and another length of the program store. -/
def State.withMemory (s : State) (ram stack prog : Memory) (progLen : Nat) : State :=
  { s with ram := ram, stack := stack, prog := prog, progLen := progLen }

/-- With other arrays the operands read the same, and the writes are the same. -/
theorem withMemory_simulation (ram stack prog : Memory) (n : Nat) :
    Simulation id fun s s' => s' = s.withMemory ram stack prog n where
  pc := rfl
  get h a := by subst h; cases a <;> rfl
  set h d v := by subst h; cases d <;> rfl
  raise h := by subst h; rfl

theorem instr_rename_id (i : Instr) : i.rename id = i := by
  have ha : ∀ a : Addr, a.rename id = a := fun a => by cases a <;> rfl
  cases i <;> simp [Instr.rename, ha]

/-- The execute step neither reads the arrays nor writes them: with others in their place it does the same. -/
theorem exec_withMemory {i : Instr} {s t : State} (h : exec i s = .next t) (ram stack prog : Memory) (n : Nat) :
    exec i (s.withMemory ram stack prog n) = .next (t.withMemory ram stack prog n) := by
  obtain ⟨t', ht', rfl⟩ := (withMemory_simulation ram stack prog n).exec rfl h
  rwa [instr_rename_id] at ht'

/-- Settles O36: by `tick_memory` and `exec_withMemory`, with the program store left as it is. -/
theorem ramAndStackAreInert : Obligations.RamAndStackAreInert := by
  unfold Obligations.RamAndStackAreInert
  refine ⟨fun cfg s t h => ?_, fun i s t m k h => ?_, fun n => ⟨rfl, rfl⟩⟩
  · obtain ⟨hram, hstack, -, -⟩ := tick_memory h
    exact ⟨hram, hstack⟩
  · obtain ⟨-, -, hprog, hlen⟩ := (exec_next h).effect.memory
    rw [hprog, hlen]
    exact exec_withMemory h m k s.prog s.progLen

/-- Settles O43: the cells by `State.resetEvent_cell` and `State.reset_cell`; the empty arrays read 0 everywhere. -/
theorem resetIsAllZero : Obligations.ResetIsAllZero := by
  unfold Obligations.ResetIsAllZero
  intro s
  exact ⟨s.resetEvent_cell, rfl, fun _ => rfl, fun _ => rfl, rfl, rfl, State.reset_cell, rfl, fun _ => rfl, fun _ => rfl⟩

end Sys2Proof.Machine
end

section
/-! The program store under the execute step and the tick (20_memory.md R32). -/

namespace Sys2Proof.Machine

/-- Settles O35: by `tick_memory` and `exec_withMemory`, with RAM and Stack left as they are. -/
theorem programStoreIsNeitherReadNorWritten : Obligations.ProgramStoreIsNeitherReadNorWritten := by
  unfold Obligations.ProgramStoreIsNeitherReadNorWritten
  refine ⟨fun cfg s t h => ?_, fun i s t p n h => ?_⟩
  · obtain ⟨-, -, hprog, hlen⟩ := tick_memory h
    exact ⟨hprog, hlen⟩
  · obtain ⟨hram, hstack, -, -⟩ := (exec_next h).effect.memory
    rw [hram, hstack]
    exact exec_withMemory h s.ram s.stack p n

end Sys2Proof.Machine
end

section
/-! The byte arrays are determined by what they read (20_memory.md R31; log 10). -/

namespace Sys2Proof.Machine

@[simp] theorem Memory.read_cons_same (k : Nat) (v : Byte) (rest : Memory) : Memory.read ((k, v) :: rest) k = v := by
  simp [Memory.read]

theorem Memory.read_cons_other {k n : Nat} (v : Byte) (rest : Memory) (h : n ≠ k) :
    Memory.read ((k, v) :: rest) n = rest.read n := by
  simp [Memory.read, h]

/-- A canonical array is canonical from its first listed index on. -/
theorem Memory.wfFrom_head {size lo k : Nat} {v : Byte} {rest : Memory}
    (h : Memory.wfFrom size lo ((k, v) :: rest) = true) : Memory.wfFrom size k ((k, v) :: rest) = true :=
  Memory.wfFrom_cons.mpr ⟨le_refl k, (Memory.wfFrom_cons.mp h).2⟩

/-- An index that reads as another byte than the unlisted one is not below the first listed index. -/
theorem Memory.le_of_read_ne {size lo a : Nat} {m : Memory} (h : Memory.wfFrom size lo m = true)
    (hr : m.read a ≠ Memory.unlisted) : lo ≤ a := by
  by_contra ha
  exact hr (Memory.read_below h (by omega))

/-- Two canonical arrays that read alike are equal. Their first listed indices agree, since each reads as a listed byte in
the other array, and the rests read alike, since up to that index both read as the unlisted byte. -/
theorem Memory.eq_of_read_eq {size : Nat} :
    ∀ {lo : Nat} {m m' : Memory}, Memory.wfFrom size lo m = true → Memory.wfFrom size lo m' = true →
      (∀ n, m.read n = m'.read n) → m = m'
  | _, [], [], _, _, _ => rfl
  | _, [], (k', v') :: rest', _, h', hr => by
    obtain ⟨-, -, hv', -⟩ := Memory.wfFrom_cons.mp h'
    exact absurd ((Memory.read_cons_same k' v' rest').symm.trans (hr k').symm) hv'
  | _, (k, v) :: rest, [], h, _, hr => by
    obtain ⟨-, -, hv, -⟩ := Memory.wfFrom_cons.mp h
    exact absurd ((Memory.read_cons_same k v rest).symm.trans (hr k)) hv
  | _, (k, v) :: rest, (k', v') :: rest', h, h', hr => by
    obtain ⟨-, -, hv, hw⟩ := Memory.wfFrom_cons.mp h
    obtain ⟨-, -, hv', hw'⟩ := Memory.wfFrom_cons.mp h'
    have hle : k ≤ k' := Memory.le_of_read_ne (Memory.wfFrom_head h) (by rwa [hr, Memory.read_cons_same])
    have hge : k' ≤ k := Memory.le_of_read_ne (Memory.wfFrom_head h') (by rwa [← hr, Memory.read_cons_same])
    obtain rfl : k = k' := le_antisymm hle hge
    obtain rfl : v = v' := by simpa using hr k
    have hrest : ∀ n, Memory.read rest n = Memory.read rest' n := fun n => by
      by_cases hn : n ≤ k
      · rw [Memory.read_below hw (by omega), Memory.read_below hw' (by omega)]
      · have hne : n ≠ k := by omega
        rw [← Memory.read_cons_other v rest hne, hr, Memory.read_cons_other v rest' hne]
    rw [Memory.eq_of_read_eq hw hw' hrest]

/-- Settles O51: the read after a write by `Memory.read_write_from`, the equality of arrays by `Memory.eq_of_read_eq`. -/
theorem memoryLaws : Obligations.MemoryLaws := by
  unfold Obligations.MemoryLaws
  exact ⟨fun m a b v size h => Memory.read_write_from b h, fun m m' size h h' hr => Memory.eq_of_read_eq h h' hr⟩

end Sys2Proof.Machine
end

section
/-! The decoder on four bytes, for any record of codes (30_encoding.md R50, R52, R53, R58, R59). -/

namespace Sys2Proof.Machine

/-- What four bytes can decode to: the opcode is one of the eight codes and gives that code's instruction, or it is none of
them. The codes need not be distinct; where two agree, `decode` answers one of their cases (log 5). -/
inductive DecodeCase (cfg : Config) : InstrBytes → Instr → Prop where
  | add (b1 b2 b3 : Byte) :
      DecodeCase cfg ⟨cfg.opAdd, b1, b2, b3⟩ (.add (decodeAddr cfg b1) (decodeAddr cfg b2) (decodeAddr cfg b3))
  | addi (b1 b2 b3 : Byte) : DecodeCase cfg ⟨cfg.opAddi, b1, b2, b3⟩ (.addi (decodeAddr cfg b1) b2 (decodeAddr cfg b3))
  | and (b1 b2 b3 : Byte) :
      DecodeCase cfg ⟨cfg.opAnd, b1, b2, b3⟩ (.and (decodeAddr cfg b1) (decodeAddr cfg b2) (decodeAddr cfg b3))
  | andi (b1 b2 b3 : Byte) : DecodeCase cfg ⟨cfg.opAndi, b1, b2, b3⟩ (.andi (decodeAddr cfg b1) b2 (decodeAddr cfg b3))
  | ifeq (b1 b2 b3 : Byte) : DecodeCase cfg ⟨cfg.opIfeq, b1, b2, b3⟩ (.ifeq (decodeAddr cfg b1) (decodeAddr cfg b2) b3)
  | ifne (b1 b2 b3 : Byte) : DecodeCase cfg ⟨cfg.opIfne, b1, b2, b3⟩ (.ifne b1 b2 b3)
  | load (b1 b2 b3 : Byte) : DecodeCase cfg ⟨cfg.opLoad, b1, b2, b3⟩ (.load b1 b2 b3)
  | save (b1 b2 b3 : Byte) : DecodeCase cfg ⟨cfg.opSave, b1, b2, b3⟩ (.save b1 b2 b3)
  | unassigned {op : Byte} (h : op ∉ cfg.opcodeCodes) (b1 b2 b3 : Byte) :
      DecodeCase cfg ⟨op, b1, b2, b3⟩ (.unassigned op b1 b2 b3)

/-- The decoder answers one of the cases. -/
theorem decode_case (cfg : Config) (w : InstrBytes) : DecodeCase cfg w (decode cfg w) := by
  obtain ⟨op, b1, b2, b3⟩ := w
  simp only [decode]
  split_ifs with h1 h2 h3 h4 h5 h6 h7 h8
  · exact h1 ▸ .add b1 b2 b3
  · exact h2 ▸ .addi b1 b2 b3
  · exact h3 ▸ .and b1 b2 b3
  · exact h4 ▸ .andi b1 b2 b3
  · exact h5 ▸ .ifeq b1 b2 b3
  · exact h6 ▸ .ifne b1 b2 b3
  · exact h7 ▸ .load b1 b2 b3
  · exact h8 ▸ .save b1 b2 b3
  · exact .unassigned (by simp [Config.opcodeCodes, h1, h2, h3, h4, h5, h6, h7, h8]) b1 b2 b3

/-- The encoder gives back the bytes: an address byte by `encodeAddr_decodeAddr`, every other byte as it stands. -/
theorem DecodeCase.encode_eq {cfg : Config} {w : InstrBytes} {i : Instr} (h : DecodeCase cfg w i) : encode cfg i = w := by
  cases h <;> simp [encode, encodeAddr_decodeAddr]

theorem DecodeCase.wf {cfg : Config} {w : InstrBytes} {i : Instr} (h : DecodeCase cfg w i) : i.wf cfg = true := by
  cases h with
  | unassigned hop b1 b2 b3 => simpa [Instr.wf] using hop
  | _ => simp [Instr.wf, decodeAddr_wf]

/-- An opcode byte without a handler gives an instruction that does nothing (42_reserved_and_unassigned.md R92). -/
theorem DecodeCase.exec_of_no_handler {cfg : Config} {w : InstrBytes} {i : Instr} (h : DecodeCase cfg w i)
    (hop : w.opcode ∉ cfg.handlerCodes) (s : State) : exec i s = .next s := by
  cases h with
  | ifne | load | save | unassigned => rfl
  | add | addi | and | andi | ifeq => exact absurd (by simp [Config.handlerCodes]) hop

/-- Settles O2: in each case of the decoder, by `DecodeCase.encode_eq`. -/
theorem encodeOfDecode : Obligations.EncodeOfDecode := by
  unfold Obligations.EncodeOfDecode
  exact fun cfg w => (decode_case cfg w).encode_eq

/-- Settles O8: by the decoder's two patterns, and the four lengths of a list that is too short. -/
theorem instructionsAreFourBytes : Obligations.InstructionsAreFourBytes := by
  unfold Obligations.InstructionsAreFourBytes
  refine ⟨fun _ _ _ => rfl, fun cfg bytes h => ?_⟩
  match bytes with
  | [] | [_] | [_, _] | [_, _, _] => rfl
  | _ :: _ :: _ :: _ :: rest => simp only [List.length_cons] at h; omega

end Sys2Proof.Machine
end

section
/-! The tick of an instruction whose execute step is known, and of one that does nothing (30_encoding.md R58, R63). -/

namespace Sys2Proof.Machine

/-- The tick of a fetched instruction whose execute step answers `u`. -/
theorem tick_of_exec {cfg : Config} {s u : State} {i : Instr} (hf : fetchedInstr cfg s = .ok i)
    (hu : exec i s.lowerJump = .next u) : tick cfg s = .next (advance u) := by
  rw [tick_of_fetched hf, executeAndAdvance_of_exec hu]

/-- The advance of an execute step that did nothing changes the PC only (42_reserved_and_unassigned.md R92). -/
theorem onlyPcAdvances_advance_lowerJump (s : State) : OnlyPcAdvances s (advance s.lowerJump) :=
  ⟨advance_pc_toNat rfl, fun _ hr => advance_cell s.lowerJump hr, advance_jf _,
    .of_eq (by simp) (by simp) (by simp) (by simp)⟩

/-- Settles O3: the bytes are well formed by `DecodeCase.wf`, run by `exec_case`, and do nothing by
`DecodeCase.exec_of_no_handler`; the tick fetches them and advances. -/
theorem everyEncodingRuns : Obligations.EveryEncodingRuns := by
  unfold Obligations.EveryEncodingRuns
  intro cfg w
  have hruns : ∀ s, ∃ t, exec (decode cfg w) s = .next t := fun s => by
    obtain ⟨t, ht, -⟩ := exec_case (decode cfg w) s
    exact ⟨t, ht⟩
  have hidle := (decode_case cfg w).exec_of_no_handler
  refine ⟨(decode_case cfg w).wf, hruns, hidle, fun s hin hw => ?_⟩
  have hf : fetchedInstr cfg s = .ok (decode cfg w) := hw ▸ fetchedInstr_inside cfg hin
  obtain ⟨u, hu⟩ := hruns s.lowerJump
  refine ⟨advance u, tick_of_exec hf hu, fun h => ?_⟩
  rw [hidle h] at hu
  cases hu
  exact onlyPcAdvances_advance_lowerJump s

/-- If the execute step writes `v` to a general register, the tick leaves `v` there. -/
theorem tick_cell_of_exec_setCell {cfg : Config} {s : State} {i : Instr} {r : Reg} {v : Byte} (hr : r ≠ .pc)
    (hf : fetchedInstr cfg s = .ok i) (hx : exec i s.lowerJump = .next (s.lowerJump.setCell r v)) :
    ∃ t, tick cfg s = .next t ∧ t.cell r = v :=
  ⟨_, tick_of_exec hf hx, by rw [advance_cell _ hr, State.cell_setCell_same]⟩

theorem exec_addi (src : Addr) (imm : Byte) (d : Addr) (s : State) :
    exec (.addi src imm d) s = .next (setOperand d (addMod (getOperand src s) imm) s) := rfl

theorem exec_and (s1 s2 d : Addr) (s : State) :
    exec (.and s1 s2 d) s = .next (setOperand d (getOperand s1 s &&& getOperand s2 s) s) := rfl

theorem exec_andi (src : Addr) (imm : Byte) (d : Addr) (s : State) :
    exec (.andi src imm d) s = .next (setOperand d (getOperand src s &&& imm) s) := rfl

/-- Adding 0 keeps a value up to 254; 255 it would reduce to 0 (40_arithmetic_logic.md R75). -/
theorem addMod_zero {v : Byte} (h : v.toNat ≤ 254) : addMod v 0 = v := by
  refine BitVec.eq_of_toNat_eq ((toNat_addMod v 0).trans ?_)
  exact Nat.mod_eq_of_lt (Nat.lt_succ_of_le h)

theorem addMod_comm (a b : Byte) : addMod a b = addMod b a := by
  rw [addMod, addMod, Nat.add_comm]

/-- Settles O50: a taken IFEQ raises the flag, which keeps its target; each of the four moves writes the value it names
(`tick_cell_of_exec_setCell`); the last writes to IO, which discards it. -/
theorem idiomsWork : Obligations.IdiomsWork := by
  unfold Obligations.IdiomsWork
  intro cfg s a r k hr
  refine ⟨fun hf => ?_, fun ha hf => ?_, fun hf => ?_, fun hk hf => ?_, fun hf => ?_, fun hf => ?_⟩
  · exact ⟨_, tick_of_exec hf (exec_ifeq_taken k rfl), rfl⟩
  · refine tick_cell_of_exec_setCell hr hf ?_
    rw [exec_addi, getOperand_lowerJump, addMod_zero ha, setOperand_cell]
  · refine tick_cell_of_exec_setCell hr hf ?_
    rw [exec_and, getOperand_lowerJump, BitVec.and_self, setOperand_cell]
  · refine tick_cell_of_exec_setCell hr hf ?_
    rw [exec_addi, getOperand_io, addMod_comm, addMod_zero hk, setOperand_cell]
  · refine tick_cell_of_exec_setCell hr hf ?_
    have hzero : getOperand (.cell r) s.lowerJump &&& 0 = 0 := BitVec.and_zero
    rw [exec_andi, hzero, setOperand_cell]
  · exact ⟨_, tick_of_exec hf (exec_addi .io 0 .io _), onlyPcAdvances_advance_lowerJump s⟩

end Sys2Proof.Machine
end

section
/-! The 32-bit word of four bytes (30_encoding.md R51; log 12), and the placing of a word (log 3). -/

namespace Sys2Proof.Machine

theorem toWord_lt (w : InstrBytes) : w.toWord < 2 ^ 32 := by
  have h1 := w.opcode.isLt
  have h2 := w.arg1.isLt
  have h3 := w.arg2.isLt
  have h4 := w.arg3.isLt
  unfold InstrBytes.toWord
  omega

/-- The four bytes of a word are the bytes it was made of. -/
theorem ofWord_toWord (w : InstrBytes) : InstrBytes.ofWord w.toWord = w := by
  obtain ⟨op, b1, b2, b3⟩ := w
  simp only [InstrBytes.ofWord, InstrBytes.toWord, InstrBytes.mk.injEq]
  refine ⟨?_, ?_, ?_, ?_⟩ <;> bv_omega

/-- A number below 2^32 is the word of its four bytes. -/
theorem toWord_ofWord {n : Nat} (h : n < 2 ^ 32) : (InstrBytes.ofWord n).toWord = n := by
  simp only [InstrBytes.ofWord, InstrBytes.toWord, BitVec.toNat_ofNat]
  omega

/-- No word of the table is refused (30_encoding.md R58). -/
theorem decodeTableWord_eq (nbits w : Nat) :
    decodeTableWord nbits w = some (decode defaultConfig (tableWordBytes nbits w)) := rfl

/-- Settles O7: the bytes of a word and the word of four bytes undo each other below 2^32, the width of a table word. -/
theorem wordNotationIsFaithful : Obligations.WordNotationIsFaithful := by
  unfold Obligations.WordNotationIsFaithful
  refine ⟨fun w => ⟨toWord_lt w, ofWord_toWord w⟩, fun n hn => toWord_ofWord hn, fun w => ?_⟩
  rw [decodeTableWord_eq, tableWordBytes, Nat.mod_eq_of_lt (toWord_lt w), ofWord_toWord]

/-- The program bytes after an instruction is placed: its four bytes at the PC, and the old byte elsewhere. -/
theorem progByte_placeAtPc {s : State} (w : InstrBytes) (hw : s.wf = true) (n : Nat) :
    (placeAtPc w s).progByte n =
      if n = s.regs.pc.toNat + 3 then w.arg3 else if n = s.regs.pc.toNat + 2 then w.arg2
      else if n = s.regs.pc.toNat + 1 then w.arg1 else if n = s.regs.pc.toNat then w.opcode else s.progByte n := by
  obtain ⟨-, -, -, hprog⟩ := State.wf_iff.mp hw
  have h0 : Memory.wf (s.progLen + s.regs.pc.toNat + 4) s.prog = true := Memory.wfFrom_size (by omega) hprog
  have h1 := Memory.wf_write (a := s.regs.pc.toNat) (v := w.opcode) h0 (by omega)
  have h2 := Memory.wf_write (a := s.regs.pc.toNat + 1) (v := w.arg1) h1 (by omega)
  have h3 := Memory.wf_write (a := s.regs.pc.toNat + 2) (v := w.arg2) h2 (by omega)
  rw [State.progByte, placeAtPc, Memory.read_write_from n h3, Memory.read_write_from n h2, Memory.read_write_from n h1,
    Memory.read_write_from n h0, ← State.progByte]

theorem bytesAt_placeAtPc {s : State} (w : InstrBytes) (hw : s.wf = true) :
    (placeAtPc w s).bytesAt s.regs.pc.toNat = w := by
  simp [State.bytesAt, progByte_placeAtPc w hw]

/-- A placed instruction lies inside the store, which is made long enough for it. -/
theorem fetchInside_placeAtPc (w : InstrBytes) (s : State) : (placeAtPc w s).FetchInside := by
  unfold State.FetchInside
  rw [placeAtPc_regs, placeAtPc_progLen]
  omega

/-- Settles O53: the placed bytes are the ones fetched, and the table word decodes as they do; every other byte reads as
before. -/
theorem placedWordIsRunNext : Obligations.PlacedWordIsRunNext := by
  unfold Obligations.PlacedWordIsRunNext
  intro s nbits w i hw hi
  rw [decodeTableWord_eq] at hi
  cases hi
  refine ⟨?_, rfl, fun n hn => ?_⟩
  · rw [State.withFetchWord, fetchedInstr_inside _ (fetchInside_placeAtPc _ s), placeAtPc_regs, bytesAt_placeAtPc _ hw]
  · rw [State.withFetchWord, progByte_placeAtPc _ hw, if_neg (by omega), if_neg (by omega), if_neg (by omega),
      if_neg (by omega)]

end Sys2Proof.Machine
end

section
/-! The default codes (30_encoding.md R54, R56; decisions D1 and D2, log 4). -/

namespace Sys2Proof.Machine

/-- Settles O4: the default codes are distinct, so each decodes to its own instruction; the list is all of them. -/
theorem defaultOpcodeMap : Obligations.DefaultOpcodeMap := by
  unfold Obligations.DefaultOpcodeMap
  intro b1 b2 b3
  have hd : defaultConfig.Distinct := by decide
  obtain ⟨hadd, haddi, hand, handi, hifeq, hifne, hload, hsave⟩ := decode_named hd b1 b2 b3
  exact ⟨hadd, haddi, hand, handi, hifeq, hifne, hload, hsave, fun op hop => decode_unassigned hop b1 b2 b3⟩

/-- Settles O5: each code is the byte of its address, and a byte from 8 on is no address code. -/
theorem defaultAddressCodes : Obligations.DefaultAddressCodes := by
  unfold Obligations.DefaultAddressCodes
  have hcell : ∀ r, decodeAddr defaultConfig (encodeAddr defaultConfig (.cell r)) = .cell r := fun r =>
    decodeAddr_encodeAddr (by decide) rfl
  exact ⟨hcell .reg0, hcell .reg1, hcell .reg2, hcell .reg3, hcell .reg4, hcell .reg5, hcell .pc,
    decodeAddr_encodeAddr (a := .io) (by decide) rfl,
    fun b hb => decodeAddr_unrecognised ((not_mem_default_addressCodes b).mpr hb)⟩

/-- Settles O6: the decoder runs on the nine words. -/
theorem sampleWordsDecode : Obligations.SampleWordsDecode := by
  unfold Obligations.SampleWordsDecode
  decide

end Sys2Proof.Machine
end

section
/-! The ALU on two bytes, for every pair (40_arithmetic_logic.md R75, R76). -/

namespace Sys2Proof.Machine

@[simp] theorem alu_addMod (a b : Byte) : alu .addMod a b = addMod a b := rfl
@[simp] theorem alu_and (a b : Byte) : alu .and a b = a &&& b := rfl

/-- Settles O16: every clause is the natural sum modulo 255 (`toNat_addMod`) over its own range of sums; the 8-bit sum is
the same natural sum modulo 256. -/
theorem additionCaseTable : Obligations.AdditionCaseTable := by
  unfold Obligations.AdditionCaseTable
  intro a b
  rw [alu_addMod]
  have hsum := toNat_addMod a b
  have hbyte : (a + b).toNat = (a.toNat + b.toNat) % 256 := BitVec.toNat_add a b
  refine ⟨fun _ => ?kept, fun _ => ?zero, fun _ _ => ?wrapped, fun _ => ?top, hsum, ?le254, fun ha => addMod_zero ha, rfl,
    fun _ _ => ?byteSum⟩
  all_goals omega

theorem toNat_and_le_left (a b : Byte) : (a &&& b).toNat ≤ a.toNat := by
  rw [BitVec.toNat_and]
  exact Nat.and_le_left

theorem toNat_and_le_right (a b : Byte) : (a &&& b).toNat ≤ b.toNat := by
  rw [BitVec.and_comm]
  exact toNat_and_le_left b a

/-- Settles O17: the laws of the bitwise AND; a result is at most either operand, so 255 needs both to be 255. -/
theorem andLaws : Obligations.AndLaws := by
  unfold Obligations.AndLaws
  intro a b
  have hle : (a &&& b).toNat ≤ a.toNat := toNat_and_le_left a b
  have hle' : (a &&& b).toNat ≤ b.toNat := toNat_and_le_right a b
  simp only [alu_and]
  exact ⟨fun _ => BitVec.getLsbD_and, hle, hle', BitVec.and_zero, BitVec.and_self, BitVec.and_allOnes,
    fun h => h.elim hle.trans hle'.trans⟩

end Sys2Proof.Machine
end

section
/-! The execute step and the whole tick of ADD, ADDI, AND and ANDI (40_arithmetic_logic.md R70 to R74, R77), all four
through the one write of a result byte to the destination. -/

namespace Sys2Proof.Machine

/-- Settles O31: by `exec_case`, which answers a next state for every instruction. -/
theorem noInstructionStops : Obligations.NoInstructionStops := by
  unfold Obligations.NoInstructionStops
  intro i s
  obtain ⟨t, ht, -⟩ := exec_case i s
  exact ⟨t, ht⟩

/-- An execute step that writes `v` to its destination: a cell takes `v`, with all that is known of `v`, and nothing else
changes; any other destination discards it (40_arithmetic_logic.md R70). -/
theorem exec_setOperand_frame {i : Instr} {d : Addr} {v : Byte} {s : State} (hx : exec i s = .next (setOperand d v s))
    {P : Byte → Prop} (hv : P v) :
    ∃ t, exec i s = .next t ∧ (∀ r, d = .cell r → P (t.cell r) ∧ OnlyCellChanges r s t) ∧
      ((∀ r, d ≠ .cell r) → t = s) := by
  refine ⟨_, hx, ?_, fun hd => setOperand_of_not_cell hd v s⟩
  rintro r rfl
  rw [setOperand_cell, State.cell_setCell_same]
  exact ⟨hv, onlyCellChanges_setCell s r v⟩

/-- Settles O12: the write of the sum, which `toNat_addMod` gives (40_arithmetic_logic.md R71). -/
theorem addResult : Obligations.AddResult := by
  unfold Obligations.AddResult
  refine ⟨fun cfg hd b1 b2 b3 => ?_, rfl, fun s b => ⟨getOperand_io s, getOperand_unrecognised b s⟩, fun s1 s2 d s => ?_⟩
  · obtain ⟨hadd, -⟩ := decode_named hd b1 b2 b3
    exact hadd
  · exact exec_setOperand_frame (exec_add s1 s2 d s) (P := fun v => v.toNat = _) (toNat_addMod _ _)

/-- Settles O13: as O12, with the immediate byte itself as second operand (40_arithmetic_logic.md R72). -/
theorem addiResult : Obligations.AddiResult := by
  unfold Obligations.AddiResult
  refine ⟨fun cfg hd b1 b2 b3 => ?_, rfl, fun src imm d s => ?_⟩
  · obtain ⟨-, haddi, -⟩ := decode_named hd b1 b2 b3
    exact haddi
  · exact exec_setOperand_frame (exec_addi src imm d s) (P := fun v => v.toNat = _) (toNat_addMod _ _)

/-- Settles O14: the write of the AND, bit by bit and not reduced (40_arithmetic_logic.md R73). -/
theorem andResult : Obligations.AndResult := by
  unfold Obligations.AndResult
  refine ⟨fun cfg hd b1 b2 b3 => ?_, rfl, fun s b => ⟨getOperand_io s, getOperand_unrecognised b s⟩, fun s1 s2 d s => ?_⟩
  · obtain ⟨-, -, hand, -⟩ := decode_named hd b1 b2 b3
    exact hand
  · exact exec_setOperand_frame (exec_and s1 s2 d s)
      (P := fun v => ∀ n, v.getLsbD n = ((getOperand s1 s).getLsbD n && (getOperand s2 s).getLsbD n))
      fun _ => BitVec.getLsbD_and

/-- Settles O15: as O14, with the immediate byte itself as second operand (40_arithmetic_logic.md R74). -/
theorem andiResult : Obligations.AndiResult := by
  unfold Obligations.AndiResult
  refine ⟨fun cfg hd b1 b2 b3 => ?_, rfl, fun src imm d s => ?_⟩
  · obtain ⟨-, -, -, handi, -⟩ := decode_named hd b1 b2 b3
    exact handi
  · exact exec_setOperand_frame (exec_andi src imm d s)
      (P := fun v => ∀ n, v.getLsbD n = ((getOperand src s).getLsbD n && imm.getLsbD n)) fun _ => BitVec.getLsbD_and

/-- The advance after a write of `v` to the destination `d`, case by case over `d`: the PC is read after the write, so a
general register leaves the old PC to advance, and a PC destination advances from `v` (decision D4, log 15). -/
theorem tickWrites_advance_setOperand (d : Addr) (v : Byte) (s : State) :
    TickWrites d v.toNat s (advance (setOperand d v s.lowerJump)) := by
  have hpc : (advance (setOperand d v s.lowerJump)).regs.pc.toNat =
      ((setOperand d v s.lowerJump).regs.pc.toNat + 4) % 255 := advance_pc_toNat (by simp)
  refine ⟨advance_jf _, .of_eq (by simp) (by simp) (by simp) (by simp), ?general, ?pc, fun hd => ?discarded⟩
  case general =>
    rintro r rfl hr
    rw [setOperand_cell, State.pc_setCell_other _ v hr] at hpc
    refine ⟨?_, hpc, fun r' hne hr' => ?_⟩
    · rw [advance_cell _ hr, setOperand_cell, State.cell_setCell_same]
    · rw [advance_cell _ hr', setOperand_cell, State.cell_setCell_other _ v hne, State.lowerJump_cell]
  case pc =>
    rintro rfl
    refine ⟨hpc, fun r hr => ?_⟩
    rw [advance_cell _ hr, setOperand_cell, State.cell_setCell_other _ v hr, State.lowerJump_cell]
  case discarded =>
    rw [setOperand_of_not_cell hd]
    exact onlyPcAdvances_advance_lowerJump s

/-- The whole tick of an instruction whose execute step writes `v` to `d`. -/
theorem tickWrites_of_exec {cfg : Config} {i : Instr} {d : Addr} {v : Byte} {n : Nat} {s : State}
    (hf : fetchedInstr cfg s = .ok i) (hx : exec i s.lowerJump = .next (setOperand d v s.lowerJump)) (hv : v.toNat = n) :
    ∃ t, tick cfg s = .next t ∧ TickWrites d n s t :=
  ⟨_, tick_of_exec hf hx, hv ▸ tickWrites_advance_setOperand d v s⟩

/-- Settles O18: the tick writes the sum of the operands, which the lowered flag does not change. -/
theorem additionTicks : Obligations.AdditionTicks := by
  unfold Obligations.AdditionTicks
  refine ⟨fun cfg s1 s2 d s hf => ?_, fun cfg src imm d s hf => ?_⟩
  · exact tickWrites_of_exec hf (exec_add s1 s2 d _) (by simp only [toNat_addMod, getOperand_lowerJump])
  · exact tickWrites_of_exec hf (exec_addi src imm d _) (by simp only [toNat_addMod, getOperand_lowerJump])

/-- Settles O19: the tick writes the AND of the operands, which the lowered flag does not change. -/
theorem logicTicks : Obligations.LogicTicks := by
  unfold Obligations.LogicTicks
  refine ⟨fun cfg s1 s2 d s hf => ?_, fun cfg src imm d s hf => ?_⟩
  · exact tickWrites_of_exec hf (exec_and s1 s2 d _) (by simp only [getOperand_lowerJump])
  · exact tickWrites_of_exec hf (exec_andi src imm d _) (by simp only [getOperand_lowerJump])

end Sys2Proof.Machine
end

section
/-! The conditional jump: IFEQ, taken and not taken, and IFNE, which has no handler (41_conditional_jump.md R80, R82). -/

namespace Sys2Proof.Machine

/-- The tick of an instruction whose execute step does nothing changes the PC only (42_reserved_and_unassigned.md R92). -/
theorem tick_onlyPcAdvances_of_exec_idle {cfg : Config} {s : State} {i : Instr} (hf : fetchedInstr cfg s = .ok i)
    (hx : exec i s.lowerJump = .next s.lowerJump) : ∃ t, tick cfg s = .next t ∧ OnlyPcAdvances s t :=
  ⟨_, tick_of_exec hf hx, onlyPcAdvances_advance_lowerJump s⟩

/-- The execute step of a taken IFEQ writes the PC and raises the flag, and leaves the rest as it was. -/
theorem exec_ifeq_taken_frame {a b : Addr} (target : Byte) {s : State} (h : getOperand a s = getOperand b s) :
    ∃ t, exec (.ifeq a b target) s = .next t ∧ t.regs.pc = target ∧ t.jf = true ∧ SameGeneralRegisters s t ∧
      SameStores s t :=
  ⟨_, exec_ifeq_taken target h, rfl, rfl, fun _ hr => s.cell_setCell_other target hr, .of_eq rfl rfl rfl rfl⟩

/-- The tick of a taken IFEQ: the advance finds the flag raised, so it keeps the target in the PC as given and lowers the
flag (44_fetch_execute_cycle.md R104). -/
theorem tick_ifeq_taken {cfg : Config} {a b : Addr} {target : Byte} {s : State}
    (hf : fetchedInstr cfg s = .ok (.ifeq a b target)) (h : getOperand a s = getOperand b s) :
    ∃ t, tick cfg s = .next t ∧ SameGeneralRegisters s t ∧ t.jf = false ∧ SameStores s t ∧ t.regs.pc = target := by
  obtain ⟨u, hu, hpc, hjf, hregs, hstores⟩ := exec_ifeq_taken_frame (s := s.lowerJump) target (by simpa using h)
  refine ⟨u.lowerJump, ?_, hregs, rfl, hstores, hpc⟩
  rw [tick_of_exec hf hu, advance_raised hjf]

/-- Settles O20: the encoding by `decode_named`; a taken IFEQ by `tick_ifeq_taken`, and one that is not taken does nothing in
its execute step, so its tick only advances the PC. -/
theorem ifeqJumps : Obligations.IfeqJumps := by
  unfold Obligations.IfeqJumps
  refine ⟨fun cfg hd b1 b2 b3 => ?encoding, rfl, fun s b => ⟨getOperand_io s, getOperand_unrecognised b s⟩,
    fun a b target s => ⟨exec_ifeq_taken_frame target, exec_ifeq_notTaken target⟩, fun cfg a b target s hf => ?tick⟩
  case encoding =>
    obtain ⟨-, -, -, -, hifeq, -⟩ := decode_named hd b1 b2 b3
    exact hifeq
  case tick =>
    by_cases h : getOperand a s = getOperand b s
    · obtain ⟨t, ht, hregs, hjf, hstores, hpc⟩ := tick_ifeq_taken hf h
      exact ⟨t, ht, hregs, hjf, hstores, fun _ => hpc, fun hne => absurd h hne⟩
    · obtain ⟨t, ht, hpc, hregs, hjf, hstores⟩ :=
        tick_onlyPcAdvances_of_exec_idle hf (exec_ifeq_notTaken target (by simpa using h))
      exact ⟨t, ht, hregs, hjf, hstores, fun heq => absurd heq h, fun _ => hpc⟩

theorem exec_ifne (b1 b2 b3 : Byte) (s : State) : exec (.ifne b1 b2 b3) s = .next s := rfl

/-- Settles O21: the execute step does nothing, so the tick only advances the PC. -/
theorem ifneDoesNothing : Obligations.IfneDoesNothing := by
  unfold Obligations.IfneDoesNothing
  refine ⟨fun cfg hd b1 b2 b3 => ?_, rfl, exec_ifne, fun cfg b1 b2 b3 s hf => ?_⟩
  · obtain ⟨-, -, -, -, -, hifne, -⟩ := decode_named hd b1 b2 b3
    exact hifne
  · exact tick_onlyPcAdvances_of_exec_idle hf (exec_ifne b1 b2 b3 _)

end Sys2Proof.Machine
end

section
/-! The reserved opcodes LOAD and SAVE, and the unassigned opcode bytes: no handler, so the tick only advances the PC
(42_reserved_and_unassigned.md R90 to R92). -/

namespace Sys2Proof.Machine

theorem exec_load (b1 b2 b3 : Byte) (s : State) : exec (.load b1 b2 b3) s = .next s := rfl

theorem exec_save (b1 b2 b3 : Byte) (s : State) : exec (.save b1 b2 b3) s = .next s := rfl

theorem exec_unassigned (op b1 b2 b3 : Byte) (s : State) : exec (.unassigned op b1 b2 b3) s = .next s := rfl

/-- Settles O22: the encoding by `decode_named`; the execute step of either does nothing, so its tick only advances the PC. -/
theorem loadAndSaveDoNothing : Obligations.LoadAndSaveDoNothing := by
  unfold Obligations.LoadAndSaveDoNothing
  refine ⟨fun cfg hd b1 b2 b3 => ?encoding, rfl, rfl, fun b1 b2 b3 s => ⟨exec_load b1 b2 b3 s, exec_save b1 b2 b3 s⟩,
    fun cfg b1 b2 b3 s hf => ?tick⟩
  case encoding =>
    obtain ⟨-, -, -, -, -, -, hload, hsave⟩ := decode_named hd b1 b2 b3
    exact ⟨hload, hsave⟩
  case tick =>
    obtain hf | hf := hf
    · exact tick_onlyPcAdvances_of_exec_idle hf (exec_load b1 b2 b3 _)
    · exact tick_onlyPcAdvances_of_exec_idle hf (exec_save b1 b2 b3 _)

/-- The default opcode codes leave three ranges of bytes free, between and above their three bands (30_encoding.md R56). -/
theorem not_mem_default_opcodeCodes (op : Byte) : op ∉ defaultConfig.opcodeCodes ↔
    (0x04 ≤ op.toNat ∧ op.toNat ≤ 0x3F) ∨ (0x42 ≤ op.toNat ∧ op.toNat ≤ 0x7F) ∨ 0x82 ≤ op.toNat := by
  simp only [Config.opcodeCodes, defaultConfig, List.mem_cons, List.not_mem_nil, or_false]
  bv_omega

/-- Settles O23: the decoder falls through to `.unassigned` (`decode_unassigned`), whose execute step does nothing, so its
tick only advances the PC. -/
theorem unassignedOpcodesDoNothing : Obligations.UnassignedOpcodesDoNothing := by
  unfold Obligations.UnassignedOpcodesDoNothing
  refine ⟨fun cfg op b1 b2 b3 hop => decode_unassigned hop b1 b2 b3, not_mem_default_opcodeCodes, exec_unassigned,
    fun cfg op b1 b2 b3 s hf => ?_⟩
  exact tick_onlyPcAdvances_of_exec_idle hf (exec_unassigned op b1 b2 b3 _)

end Sys2Proof.Machine
end

section
/-! The fetch, when a tick completes (44_fetch_execute_cycle.md R100 to R103, R107; decision D3, log 6), and the store that
the host loads (R109). -/

namespace Sys2Proof.Machine

/-- The fetch succeeds exactly inside the store. -/
theorem fetch_ok_iff (s : State) : (∃ w, fetch s = .ok w) ↔ s.FetchInside := by
  constructor
  · rintro ⟨w, hw⟩
    by_contra h
    rw [fetch_outside h] at hw
    cases hw
  · exact fun h => ⟨_, fetch_inside h⟩

/-- A tick whose fetch leaves the store stops with the first index outside it. -/
theorem tick_outside (cfg : Config) {s : State} (h : ¬ s.FetchInside) :
    tick cfg s = .fault (.fetchOverrun (max s.regs.pc.toNat s.progLen) s.regs.pc) := by
  obtain ⟨i, u, hf, -⟩ | ⟨-, hfault⟩ := tick_cases cfg s
  · exact absurd (fetchedInstr_ok hf).1 h
  · exact hfault

/-- A tick whose fetch stays inside the store completes. -/
theorem tick_inside (cfg : Config) {s : State} (h : s.FetchInside) : ∃ t, tick cfg s = .next t := by
  obtain ⟨i, u, -, -, -, ht⟩ | ⟨hout, -⟩ := tick_cases cfg s
  · exact ⟨_, ht⟩
  · exact absurd h hout

/-- Settles O25: the four bytes of `fetch_inside`. -/
theorem fetchReadsFourBytes : Obligations.FetchReadsFourBytes := by
  unfold Obligations.FetchReadsFourBytes
  exact fun _ h => fetch_inside h

/-- Settles O26: the larger of the PC and `PROG_LEN` is the first index outside the store. -/
theorem fetchOverrunFaults : Obligations.FetchOverrunFaults := by
  unfold Obligations.FetchOverrunFaults
  intro cfg s h
  refine ⟨max s.regs.pc.toNat s.progLen, tick_outside cfg (Nat.not_lt.mpr h), ?_, ?_, ?_, fun j hpc hj => ?_⟩
  all_goals omega

/-- Settles O27: inside the store by `tick_inside`, outside it by `tick_outside`. -/
theorem tickCompletesExactlyInside : Obligations.TickCompletesExactlyInside := by
  unfold Obligations.TickCompletesExactlyInside
  intro cfg s
  by_cases h : s.FetchInside
  · obtain ⟨t, ht⟩ := tick_inside cfg h
    rw [ht]
    exact ⟨⟨fun _ => h, fun _ => ⟨t, rfl⟩⟩, nofun, nofun⟩
  · rw [tick_outside cfg h]
    exact ⟨⟨nofun, fun hin => absurd hin h⟩, nofun, fun f hf => ⟨_, by cases hf; rfl⟩⟩

/-- Settles O28: `pc + 3` is below 255 exactly for PCs up to 251, and always below 259. -/
theorem defaultLengthRange : Obligations.DefaultLengthRange := by
  unfold Obligations.DefaultLengthRange
  intro s
  have hpc : s.regs.pc.toNat < 256 := s.regs.pc.isLt
  rw [fetch_ok_iff, State.FetchInside, Config.defaultProgLen]
  omega

/-- Settles O24: the execute step answers some `u`, so both sides are the advance of `u`. -/
theorem stepRunsTheDecodedInstruction : Obligations.StepRunsTheDecodedInstruction := by
  unfold Obligations.StepRunsTheDecodedInstruction
  refine ⟨fun cfg s i hin hi => ?_, fun _ => rfl⟩
  have hf : fetchedInstr cfg s = .ok i := hi ▸ fetchedInstr_inside cfg hin
  obtain ⟨u, hu, -⟩ := exec_case i s.lowerJump
  have hu' : exec i { s with jf := false } = .next u := hu
  rw [tick_of_exec hf hu, hu']
  rfl

/-- Settles O52: the bytes by `Memory.read_ofBytes`, from index 0 on. -/
theorem loadedProgramIsTheStore : Obligations.LoadedProgramIsTheStore := by
  unfold Obligations.LoadedProgramIsTheStore
  refine fun s bytes => ⟨rfl, rfl, fun n h => ?_⟩
  have hread := Memory.read_ofBytes bytes 0 n h
  rwa [Nat.zero_add] at hread

end Sys2Proof.Machine
end

section
/-! The outcome of a tick depends on the registers and the program alone (44_fetch_execute_cycle.md R107): the other state
is, with the flag lowered, the one state with other arrays, and the tick carries those arrays through. -/

namespace Sys2Proof.Machine

/-- The advance neither reads the arrays nor writes them. -/
theorem advance_withMemory (s : State) (ram stack prog : Memory) (n : Nat) :
    advance (s.withMemory ram stack prog n) = (advance s).withMemory ram stack prog n := by
  cases hj : s.jf with
  | true =>
    have hj' : (s.withMemory ram stack prog n).jf = true := hj
    rw [advance_raised hj, advance_raised hj']
    rfl
  | false =>
    have hj' : (s.withMemory ram stack prog n).jf = false := hj
    rw [advance_down hj, advance_down hj']
    rfl

/-- States with the same registers differ, once the flag is lowered, in their arrays alone. -/
theorem lowerJump_eq_withMemory {s s' : State} (h : s'.regs = s.regs) :
    s'.lowerJump = s.lowerJump.withMemory s'.ram s'.stack s'.prog s'.progLen := by
  rw [State.lowerJump, h]
  rfl

theorem SameRegistersAndProgram.fetchInside_iff {s s' : State} (h : SameRegistersAndProgram s s') :
    s'.FetchInside ↔ s.FetchInside := by
  obtain ⟨hregs, hlen, -⟩ := h
  rw [State.FetchInside, State.FetchInside, hregs, hlen]

/-- Inside the store the same four bytes are fetched; outside it the same index is the first beyond the store. -/
theorem SameRegistersAndProgram.fetchedInstr_eq {s s' : State} (h : SameRegistersAndProgram s s') (cfg : Config) :
    fetchedInstr cfg s' = fetchedInstr cfg s := by
  have ⟨hregs, hlen, hprog⟩ := h
  by_cases hin : s.FetchInside
  · have hbytes : s'.bytesAt s.regs.pc.toNat = s.bytesAt s.regs.pc.toNat := by
      unfold State.FetchInside at hin
      simp only [State.bytesAt]
      rw [hprog _ (by omega), hprog _ (by omega), hprog _ (by omega), hprog _ (by omega)]
    rw [fetchedInstr_inside cfg (h.fetchInside_iff.mpr hin), fetchedInstr_inside cfg hin, hregs, hbytes]
  · rw [fetchedInstr_outside cfg (mt h.fetchInside_iff.mp hin), fetchedInstr_outside cfg hin, hregs, hlen]

/-- A tick of the other state answers the same next state, but for the arrays, which stay its own. -/
theorem SameRegistersAndProgram.tick_withMemory {s s' t : State} (h : SameRegistersAndProgram s s') {cfg : Config}
    (ht : tick cfg s = .next t) : tick cfg s' = .next (t.withMemory s'.ram s'.stack s'.prog s'.progLen) := by
  obtain ⟨i, u, hf, hu, -, rfl⟩ := tick_next ht
  have hf' : fetchedInstr cfg s' = .ok i := (h.fetchedInstr_eq cfg).trans hf
  have hu' := exec_withMemory hu s'.ram s'.stack s'.prog s'.progLen
  rw [← lowerJump_eq_withMemory h.1] at hu'
  rw [tick_of_exec hf' hu', advance_withMemory]

/-- Settles O37: inside the store by `SameRegistersAndProgram.tick_withMemory`, where the arrays of neither state change;
outside it both ticks fault with the same index and PC. -/
theorem outcomeDependsOnRegistersAndProgramOnly : Obligations.OutcomeDependsOnRegistersAndProgramOnly := by
  unfold Obligations.OutcomeDependsOnRegistersAndProgramOnly
  intro cfg s s' h
  have ⟨hregs, hlen, hprog⟩ := h
  by_cases hin : s.FetchInside
  · obtain ⟨t, ht⟩ := tick_inside cfg hin
    obtain ⟨-, -, htprog, htlen⟩ := tick_memory ht
    refine .inl ⟨t, _, ht, h.tick_withMemory ht, ⟨rfl, hlen.trans htlen.symm, fun n hn => ?_⟩, rfl⟩
    calc s'.progByte n = s.progByte n := hprog n (htlen ▸ hn)
      _ = t.progByte n := by rw [State.progByte, State.progByte, htprog]
  · refine .inr ⟨_, tick_outside cfg hin, ?_⟩
    rw [tick_outside cfg (mt h.fetchInside_iff.mp hin), hregs, hlen]

end Sys2Proof.Machine
end

section
/-! The PC update (44_fetch_execute_cycle.md R104, R105). -/

namespace Sys2Proof.Machine

/-- Only a taken IFEQ raises the flag. -/
theorem ExecEffect.taken_of_raised {i : Instr} {s u : State} (h : ExecEffect i s u) (hj : s.jf = false)
    (hu : u.jf = true) : ∃ a b target, i = .ifeq a b target ∧ getOperand a s = getOperand b s := by
  cases h with
  | writes op a v hd => rw [setOperand_jf, hj] at hu; cases hu
  | jumps target hab => exact ⟨_, _, target, rfl, hab⟩
  | idles _ _ => rw [hj] at hu; cases hu

/-- Settles O29: the advance by `advance_raised`, the IFEQ by `ExecEffect.taken_of_raised`. -/
theorem signalledJumpAdvance : Obligations.SignalledJumpAdvance := by
  unfold Obligations.SignalledJumpAdvance
  exact ⟨fun _ hj => advance_raised hj, fun _ _ _ hj ht htj => (exec_next ht).effect.taken_of_raised hj htj⟩

/-- The n-th successor of 0 is 4n modulo 255. -/
theorem toNat_nextPc_iterate (n : Nat) : (nextPc^[n] 0).toNat = 4 * n % 255 := by
  induction n with
  | zero => rfl
  | succ n ih =>
    rw [Function.iterate_succ_apply', toNat_nextPc, ih]
    omega

/-- 4 is invertible modulo 255, with the inverse 64: `v` is visited at `64 v mod 255` and nowhere else below 255. -/
theorem nextPc_iterate_eq_iff {v : Byte} (hv : v.toNat ≤ 254) {n : Nat} (hn : n < 255) :
    nextPc^[n] 0 = v ↔ n = 64 * v.toNat % 255 := by
  rw [← BitVec.toNat_inj, toNat_nextPc_iterate]
  omega

/-- Settles O30: the advance by `advance_down`; a raised flag would be a taken IFEQ (`ExecEffect.taken_of_raised`); the
orbit by `nextPc_iterate_eq_iff`. -/
theorem sequentialAdvance : Obligations.SequentialAdvance := by
  unfold Obligations.SequentialAdvance
  refine ⟨fun s hj => ⟨advance_pc_toNat hj, ?bound, ?frame⟩, fun i s hj hn => ?flagDown, by decide, toNat_nextPc_iterate,
    fun v hv => ?orbit⟩
  case bound =>
    rw [advance_down hj]
    exact nextPc_le s.regs.pc
  case frame =>
    rw [advance_down hj]
    exact onlyCellChanges_setCell s .pc _
  case flagDown =>
    obtain ⟨t, ht, hc⟩ := exec_case i s
    refine ⟨t, ht, Bool.eq_false_iff.mpr fun htj => ?_⟩
    obtain ⟨a, b, target, hi, hab⟩ := hc.effect.taken_of_raised hj htj
    exact hn a b target hi hab
  case orbit =>
    have hlt : 64 * v.toNat % 255 < 255 := Nat.mod_lt _ (by omega)
    exact ⟨64 * v.toNat % 255, ⟨hlt, (nextPc_iterate_eq_iff hv hlt).mpr rfl⟩,
      fun n ⟨hn, heq⟩ => (nextPc_iterate_eq_iff hv hn).mp heq⟩

end Sys2Proof.Machine
end

section
/-! Reset, and the states that a tick maps to themselves (70_reset_and_hazards.md R141, R147, R148). -/

namespace Sys2Proof.Machine

/-! ## The first fetch -/

/-- Settles O44: the fetch of `fetch_inside`, whose PC is 0 and whose store reset has left alone. -/
theorem firstFetchIsAtZero : Obligations.FirstFetchIsAtZero := by
  unfold Obligations.FirstFetchIsAtZero
  exact fun s h => ⟨rfl, fetch_inside (s := s.resetEvent) h⟩

/-! ## When the advance gives back the state before the execute step -/

@[simp] theorem State.setCell_setCell (s : State) (r : Reg) (v v' : Byte) :
    (s.setCell r v).setCell r v' = s.setCell r v' := by
  cases r <;> rfl

theorem nextPc_eq_iff (v pc : Byte) : nextPc v = pc ↔ (v.toNat + 4) % 255 = pc.toNat := by
  rw [← BitVec.toNat_inj, toNat_nextPc]

/-- A signalled jump to the PC itself leaves the state as it was. -/
theorem advance_jump_to_self {s : State} (hj : s.jf = false) : advance (s.setCell .pc s.regs.pc).raiseJump = s := by
  rw [advance_raised (State.raiseJump_jf _), ← State.cell_pc, State.setCell_self]
  exact State.lowerJump_of_down hj

/-- The advance undoes a write of `pc - 4` to the PC (decision D4, log 15). -/
theorem advance_setCell_pc {s : State} {v : Byte} (hj : s.jf = false) (hv : (v.toNat + 4) % 255 = s.regs.pc.toNat) :
    advance (s.setCell .pc v) = s := by
  rw [advance_down (s := s.setCell .pc v) hj, State.setCell_regs, RegFile.write_pc, (nextPc_eq_iff v _).mpr hv,
    State.setCell_setCell, ← State.cell_pc, State.setCell_self]

/-- Execute and advance give back the state exactly for a taken IFEQ to the PC itself and for a write to the PC whose
successor is the old PC: in every other case the PC moves on to its successor, which is another PC. -/
theorem ExecEffect.advance_eq_iff {i : Instr} {s u : State} (h : ExecEffect i s u) (hj : s.jf = false) :
    advance u = s ↔
      (∃ a b, i = .ifeq a b s.regs.pc ∧ getOperand a s = getOperand b s) ∨
        (i.destination = some (.cell .pc) ∧ (u.regs.pc.toNat + 4) % 255 = s.regs.pc.toNat) := by
  constructor
  · intro hs
    have hcases := h.pc_advance hj
    rw [hs] at hcases
    obtain hjump | hd | hpc := hcases
    · exact .inl hjump
    · refine .inr ⟨hd, ?_⟩
      rw [← advance_pc_toNat ((h.jf_of_destination hd).trans hj), hs]
    · exact absurd ((nextPc_eq_iff _ _).mpr hpc.symm) (nextPc_ne s.regs.pc)
  · rintro (⟨a, b, rfl, hab⟩ | ⟨hd, hpc⟩)
    · cases h with
      | writes op a v hd => cases hd
      | jumps target hab => exact advance_jump_to_self hj
      | idles _ hne => exact absurd hab (hne a b _ rfl)
    · cases h with
      | writes op a v hd' =>
        cases hd.symm.trans hd'
        exact advance_setCell_pc hj hpc
      | jumps target hab => cases hd
      | idles hnone _ => cases hd.symm.trans hnone

/-! ## Quiescent states -/

/-- Settles O46: a quiescent state has the flag down (`tick_jf`), so its tick is `ExecEffect.advance_eq_iff` at the
instruction it fetched. -/
theorem quiescentExactlyBySelfJumpOrPcWrite : Obligations.QuiescentExactlyBySelfJumpOrPcWrite := by
  unfold Obligations.QuiescentExactlyBySelfJumpOrPcWrite
  intro cfg s
  constructor
  · intro hq
    have hj := tick_jf hq
    obtain ⟨i, u, hf, hu, he, hs⟩ := tick_effect hq
    rw [State.lowerJump_of_down hj] at hu he
    refine ⟨hj, i, hf, ((he.advance_eq_iff hj).mp hs.symm).imp_right ?_⟩
    exact fun ⟨hd, hpc⟩ => ⟨hd, u, hu, hpc⟩
  · rintro ⟨hj, i, hf, hi⟩
    obtain ⟨u, hu, hc⟩ := exec_case i s
    have hs : advance u = s := (hc.effect.advance_eq_iff hj).mpr <| hi.imp_right fun ⟨hd, u', hu', hpc⟩ => by
      cases hu.symm.trans hu'
      exact ⟨hd, hpc⟩
    rw [State.Quiescent, tick_of_exec hf (by rwa [State.lowerJump_of_down hj]), hs]

/-- Settles O45: both are cases of O46; `(pc - 4) mod 255` plus 4 is the PC again, since the PC is at most 254. -/
theorem selfJumpsAreQuiescent : Obligations.SelfJumpsAreQuiescent := by
  unfold Obligations.SelfJumpsAreQuiescent
  refine ⟨fun cfg s a b hj hf hab => ?jump, fun cfg s imm hj hpc hf himm => ?pcWrite⟩
  case jump =>
    exact (quiescentExactlyBySelfJumpOrPcWrite cfg s).mpr ⟨hj, _, hf, .inl ⟨a, b, rfl, hab⟩⟩
  case pcWrite =>
    refine (quiescentExactlyBySelfJumpOrPcWrite cfg s).mpr ⟨hj, _, hf, .inr ⟨rfl, _, exec_addi .io imm (.cell .pc) s, ?_⟩⟩
    have hsum : (addMod 0 imm).toNat = (0 + imm.toNat) % 255 := toNat_addMod 0 imm
    rw [setOperand_cell, State.setCell_regs, RegFile.write_pc, getOperand_io]
    omega

theorem State.AtSelfJump.quiescent {cfg : Config} {s : State} (h : s.AtSelfJump cfg) : s.Quiescent cfg := by
  obtain ⟨hjump, hpcWrite⟩ := selfJumpsAreQuiescent
  obtain ⟨hj, ⟨a, b, hf, hab⟩ | ⟨hpc, imm, hf, himm⟩⟩ := h
  · exact hjump cfg s a b hj hf hab
  · exact hpcWrite cfg s imm hj hpc hf himm

/-! ## Runs -/

/-- A run stays in a state that the step maps to itself. -/
theorem run_of_step_self {M : Host.Core} {s : M.State} (h : M.step s = .next s) (n : Nat) : M.run n s = .next s := by
  induction n with
  | zero => rfl
  | succ n ih => rw [Host.Core.run, h]; exact ih

/-- A run that reaches `s` goes on as the run from `s`. -/
theorem run_add_of_run_next {M : Host.Core} {s0 s : M.State} {k : Nat} (h : M.run k s0 = .next s) (m : Nat) :
    M.run (k + m) s0 = M.run m s := by
  induction k generalizing s0 with
  | zero =>
    cases h
    rw [Nat.zero_add]
  | succ k ih =>
    rw [Nat.succ_add]
    rw [Host.Core.run] at h ⊢
    cases hs : M.step s0 with
    | next s1 => rw [hs] at h; exact ih h
    | fault r => rw [hs] at h; cases h
    | refused r => rw [hs] at h; cases h

/-- Settles O47: a self-jump is quiescent (`State.AtSelfJump.quiescent`), so a run stays in it, also one that arrives there
after `k` steps. -/
theorem quiescentRunsStay : Obligations.QuiescentRunsStay := by
  unfold Obligations.QuiescentRunsStay
  intro s h
  have hstay : ∀ n, Host.Core.run Sys2Proof.core n s = .next s := run_of_step_self (M := Sys2Proof.core) h.quiescent
  refine ⟨hstay, fun s0 k n hk hkn => ?_⟩
  rw [← Nat.add_sub_of_le hkn, run_add_of_run_next hk, hstay]

end Sys2Proof.Machine
end

section
/-! Recoding (92_eei_decisions.md D1, D2): the codes matter to the decoder alone. The two encodings decode to one instruction,
and from there the tick never looks at the codes. -/

namespace Sys2Proof.Machine

/-- Fetching the encoding of a well-formed instruction is fetching that instruction. -/
theorem fetchedInstr_of_fetch_encode {cfg : Config} {i : Instr} {s : State} (hd : cfg.Distinct) (hw : i.wf cfg = true)
    (hf : fetch s = .ok (encode cfg i)) : fetchedInstr cfg s = .ok i := by
  have hdecode : decode cfg (encode cfg i) = i := roundTrip_statement i cfg hd hw
  rw [fetchedInstr, hf, Except.map, hdecode]

/-- States with the same registers that fetch the same instruction, each under its own codes, answer the same next state, but
for the arrays, which stay their own. -/
theorem tick_withMemory_of_fetchedInstr {cfg cfg' : Config} {i : Instr} {s s' : State} (hregs : s'.regs = s.regs)
    (hf : fetchedInstr cfg s = .ok i) (hf' : fetchedInstr cfg' s' = .ok i) :
    ∃ t, tick cfg s = .next t ∧ tick cfg' s' = .next (t.withMemory s'.ram s'.stack s'.prog s'.progLen) := by
  obtain ⟨u, hu, -⟩ := exec_case i s.lowerJump
  have hu' := exec_withMemory hu s'.ram s'.stack s'.prog s'.progLen
  rw [← lowerJump_eq_withMemory hregs] at hu'
  exact ⟨advance u, tick_of_exec hf hu, by rw [tick_of_exec hf' hu', advance_withMemory]⟩

/-- Settles O49: both states fetch the instruction itself (`fetchedInstr_of_fetch_encode`), and other arrays change neither
the registers nor the flag. -/
theorem codesDoNotMatter : Obligations.CodesDoNotMatter := by
  unfold Obligations.CodesDoNotMatter
  intro cfg cfg' i s s' hd hd' hw hw' hregs hf hf'
  obtain ⟨t, ht, ht'⟩ := tick_withMemory_of_fetchedInstr hregs (fetchedInstr_of_fetch_encode hd hw hf)
    (fetchedInstr_of_fetch_encode hd' hw' hf')
  exact ⟨t, _, ht, ht', rfl, rfl⟩

end Sys2Proof.Machine
end
